-- ==== Sys2Proof/Word.lean ====
section
/-! DEFINITION. The word types of the machine (spec/10_state.md R10 to R13): bytes, 16-bit words, register indices. -/

namespace Sys2Proof

/-- A V register, a timer, a memory cell: an unsigned value 0–255 (R10, R16, R18). -/
abbrev Byte := BitVec 8

/-- `I`, `PC`, a stack entry, an opcode: 16 bits (R12, R13, R14, R60). -/
abbrev Word := BitVec 16

/-- A 12-bit address field `NNN` (R61). -/
abbrev Addr := BitVec 12

/-- A 4-bit field of an opcode: one hexadecimal digit of its pattern (R61). -/
abbrev Nibble := BitVec 4

/-- A register index 0..15; every value names a register (R10, R63). -/
abbrev RegIx := Fin 16

end Sys2Proof
end

