-- ==== Sys2Proof/Config.lean ====
section
/-! DEFINITION. The program's place (spec/00_scope.md R4) and the two free inputs of a step
(spec/92_eei_decisions.md D15, D17), which no proof can see a value of. -/

namespace Sys2Proof

/-- `PROG_BASE`: the program origin, and PC after reset (R4, R25, R202). -/
abbrev Config.progBase : Nat := 0x200

/-- `PROG_MAX`: the longest image `load` accepts, 4096 - 0x200 bytes (R4, R203). -/
abbrev Config.progMax : Nat := 3584

/-- RAND (R132, D17, U9): the byte the `n`-th free draw of a run gives. A FREE VALUE: no law is placed on it.
Log entry 2. -/
opaque Config.randByte : Nat → Byte

/-- KEY_CHOICE (R164, D15, U10): the number that picks one of several pressed keys at the `n`-th free draw of a run.
A FREE VALUE: no law is placed on it. Log entry 3. -/
opaque Config.keyChoice : Nat → Nat

end Sys2Proof
end

