-- ==== Sys2Proof/Syntax.lean ====
section
/-! DEFINITION. The instructions: one constructor for each of the 33 rows of spec/30_encoding.md R64
(spec/opcode_table.json), in the table's order. -/

namespace Sys2Proof

/-- The instruction set of R64. Operands are the fields of R61 an instruction's pattern leaves free. `shr` and `shl`
carry the Y field of their word although no rule reads it (R65): it is part of the opcode a decoder sees. -/
inductive Instr where
  /-- 00E0 `CLS` (R150) -/
  | cls
  /-- 00EE `RET` (R100) -/
  | ret
  /-- 1NNN `JP nnn` (R101) -/
  | jp (nnn : Addr)
  /-- 2NNN `CALL nnn` (R102) -/
  | call (nnn : Addr)
  /-- 3XNN `SE Vx, nn` (R110) -/
  | seByte (x : RegIx) (nn : Byte)
  /-- 4XNN `SNE Vx, nn` (R111) -/
  | sneByte (x : RegIx) (nn : Byte)
  /-- 5XY0 `SE Vx, Vy` (R112) -/
  | seReg (x y : RegIx)
  /-- 6XNN `LD Vx, nn` (R121) -/
  | ldByte (x : RegIx) (nn : Byte)
  /-- 7XNN `ADD Vx, nn` (R122) -/
  | addByte (x : RegIx) (nn : Byte)
  /-- 8XY0 `LD Vx, Vy` (R123) -/
  | ldReg (x y : RegIx)
  /-- 8XY1 `OR Vx, Vy` (R124) -/
  | orReg (x y : RegIx)
  /-- 8XY2 `AND Vx, Vy` (R125) -/
  | andReg (x y : RegIx)
  /-- 8XY3 `XOR Vx, Vy` (R126) -/
  | xorReg (x y : RegIx)
  /-- 8XY4 `ADD Vx, Vy` (R127) -/
  | addReg (x y : RegIx)
  /-- 8XY5 `SUB Vx, Vy` (R128) -/
  | subReg (x y : RegIx)
  /-- 8XY6 `SHR Vx` (R129) -/
  | shr (x y : RegIx)
  /-- 8XY7 `SUBN Vx, Vy` (R130) -/
  | subnReg (x y : RegIx)
  /-- 8XYE `SHL Vx` (R131) -/
  | shl (x y : RegIx)
  /-- 9XY0 `SNE Vx, Vy` (R113) -/
  | sneReg (x y : RegIx)
  /-- ANNN `LD I, nnn` (R140) -/
  | ldI (nnn : Addr)
  /-- BNNN `JP V0, nnn` (R103) -/
  | jpV0 (nnn : Addr)
  /-- CXNN `RND Vx, nn` (R132) -/
  | rnd (x : RegIx) (nn : Byte)
  /-- DXYN `DRW Vx, Vy, n` (R151); `n` is the sprite's height in rows, 0–15 -/
  | drw (x y : RegIx) (n : Fin 16)
  /-- EX9E `SKP Vx` (R165) -/
  | skp (x : RegIx)
  /-- EXA1 `SKNP Vx` (R166) -/
  | sknp (x : RegIx)
  /-- FX07 `LD Vx, DT` (R160) -/
  | ldVxDT (x : RegIx)
  /-- FX0A `LD Vx, K` (R163) -/
  | ldVxK (x : RegIx)
  /-- FX15 `LD DT, Vx` (R161) -/
  | ldDTVx (x : RegIx)
  /-- FX18 `LD ST, Vx` (R162) -/
  | ldSTVx (x : RegIx)
  /-- FX1E `ADD I, Vx` (R141) -/
  | addI (x : RegIx)
  /-- FX33 `LD B, Vx` (R142) -/
  | ldB (x : RegIx)
  /-- FX55 `LD [I], Vx` (R143) -/
  | ldMemVx (x : RegIx)
  /-- FX65 `LD Vx, [I]` (R144) -/
  | ldVxMem (x : RegIx)
  deriving DecidableEq, Repr

end Sys2Proof
end

