-- ==== Sys2Proof/WellFormed.lean ====
section
/-! DEFINITION. The opcode map of spec/30_encoding.md R64 as data, and what it is for a row, for the map and for a
word to be well formed. A term of `Instr` has nothing left to check: its fields have exactly the widths of R61, and
"no register field can be invalid" (R63), so the checks are of words and of the map. -/

namespace Sys2Proof

/-- One row of the opcode map: the word is this instruction iff `word AND mask = value` (R64). -/
structure OpcodeRow where
  mnemonic : String
  mask  : Word
  value : Word
  deriving DecidableEq, Repr

/-- `(word AND mask) = match` (R64). -/
def OpcodeRow.accepts (r : OpcodeRow) (w : Word) : Bool := w &&& r.mask == r.value

/-- A row is well formed when its match has no bit outside its mask; otherwise no word is it. -/
def OpcodeRow.wellFormed (r : OpcodeRow) : Bool := r.value &&& r.mask == r.value

/-- Two rows exclude each other when some bit that both fix differs: no word is both (R64). -/
def OpcodeRow.excludes (r q : OpcodeRow) : Bool := (r.mask &&& q.mask) &&& (r.value ^^^ q.value) != 0

/-- The row of R64 that is an instruction's own. -/
def Instr.row : Instr → OpcodeRow
  | .cls => ⟨"CLS", 0xFFFF, 0x00E0⟩
  | .ret => ⟨"RET", 0xFFFF, 0x00EE⟩
  | .jp _ => ⟨"JP_nnn", 0xF000, 0x1000⟩
  | .call _ => ⟨"CALL_nnn", 0xF000, 0x2000⟩
  | .seByte _ _ => ⟨"SE_Vx__nn", 0xF000, 0x3000⟩
  | .sneByte _ _ => ⟨"SNE_Vx__nn", 0xF000, 0x4000⟩
  | .seReg _ _ => ⟨"SE_Vx__Vy", 0xF00F, 0x5000⟩
  | .ldByte _ _ => ⟨"LD_Vx__nn", 0xF000, 0x6000⟩
  | .addByte _ _ => ⟨"ADD_Vx__nn", 0xF000, 0x7000⟩
  | .ldReg _ _ => ⟨"LD_Vx__Vy", 0xF00F, 0x8000⟩
  | .orReg _ _ => ⟨"OR_Vx__Vy", 0xF00F, 0x8001⟩
  | .andReg _ _ => ⟨"AND_Vx__Vy", 0xF00F, 0x8002⟩
  | .xorReg _ _ => ⟨"XOR_Vx__Vy", 0xF00F, 0x8003⟩
  | .addReg _ _ => ⟨"ADD_Vx__Vy", 0xF00F, 0x8004⟩
  | .subReg _ _ => ⟨"SUB_Vx__Vy", 0xF00F, 0x8005⟩
  | .shr _ _ => ⟨"SHR_Vx", 0xF00F, 0x8006⟩
  | .subnReg _ _ => ⟨"SUBN_Vx__Vy", 0xF00F, 0x8007⟩
  | .shl _ _ => ⟨"SHL_Vx", 0xF00F, 0x800E⟩
  | .sneReg _ _ => ⟨"SNE_Vx__Vy", 0xF00F, 0x9000⟩
  | .ldI _ => ⟨"LD_I__nnn", 0xF000, 0xA000⟩
  | .jpV0 _ => ⟨"JP_V0__nnn", 0xF000, 0xB000⟩
  | .rnd _ _ => ⟨"RND_Vx__nn", 0xF000, 0xC000⟩
  | .drw _ _ _ => ⟨"DRW_Vx__Vy__n", 0xF000, 0xD000⟩
  | .skp _ => ⟨"SKP_Vx", 0xF0FF, 0xE09E⟩
  | .sknp _ => ⟨"SKNP_Vx", 0xF0FF, 0xE0A1⟩
  | .ldVxDT _ => ⟨"LD_Vx__DT", 0xF0FF, 0xF007⟩
  | .ldVxK _ => ⟨"LD_Vx__K", 0xF0FF, 0xF00A⟩
  | .ldDTVx _ => ⟨"LD_DT__Vx", 0xF0FF, 0xF015⟩
  | .ldSTVx _ => ⟨"LD_ST__Vx", 0xF0FF, 0xF018⟩
  | .addI _ => ⟨"ADD_I__Vx", 0xF0FF, 0xF01E⟩
  | .ldB _ => ⟨"LD_B__Vx", 0xF0FF, 0xF033⟩
  | .ldMemVx _ => ⟨"LD__I___Vx", 0xF0FF, 0xF055⟩
  | .ldVxMem _ => ⟨"LD_Vx___I", 0xF0FF, 0xF065⟩

/-- One instruction of each row, in the order of the map. -/
def opcodeSamples : List Instr :=
  [.cls, .ret, .jp 0, .call 0, .seByte 0 0, .sneByte 0 0, .seReg 0 0, .ldByte 0 0, .addByte 0 0, .ldReg 0 0, .orReg 0 0,
   .andReg 0 0, .xorReg 0 0, .addReg 0 0, .subReg 0 0, .shr 0 0, .subnReg 0 0, .shl 0 0, .sneReg 0 0, .ldI 0, .jpV0 0,
   .rnd 0 0, .drw 0 0 0, .skp 0, .sknp 0, .ldVxDT 0, .ldVxK 0, .ldDTVx 0, .ldSTVx 0, .addI 0, .ldB 0, .ldMemVx 0,
   .ldVxMem 0]

/-- The opcode map of R64: 33 rows. -/
def opcodeRows : List OpcodeRow := opcodeSamples.map Instr.row

/-- A map is well formed when each row is and the rows exclude each other pairwise (R64). -/
def mapWellFormed : List OpcodeRow → Bool
  | [] => true
  | r :: rs => r.wellFormed && rs.all r.excludes && mapWellFormed rs

/-- A word is an instruction iff some row of R64 accepts it (R64, R65); the others are unrecognised (R66). -/
def wordWellFormed (w : Word) : Bool := opcodeRows.any (fun r => r.accepts w)

end Sys2Proof
end

