-- ==== Sys2Proof/Decode.lean ====
section
/-! DEFINITION. The decoder of spec/30_encoding.md (R60 to R67), total on any bytes and rejecting by name, and after it
the encoder written from the same table. -/

namespace Sys2Proof

/-! ### Fields of an opcode (R61) -/

/-- `T`, op[15:12]. -/
def opT (w : Word) : Nibble := w.extractLsb' 12 4
/-- `X`, op[11:8], a register index. -/
def opX (w : Word) : RegIx := (w.extractLsb' 8 4).toFin
/-- `Y`, op[7:4], a register index. -/
def opY (w : Word) : RegIx := (w.extractLsb' 4 4).toFin
/-- `N`, op[3:0], a count or a sub-opcode. -/
def opN (w : Word) : Nibble := w.extractLsb' 0 4
/-- `NN`, op[7:0], an immediate byte or a sub-opcode. -/
def opNN (w : Word) : Byte := w.extractLsb' 0 8
/-- `NNN`, op[11:0], an address. -/
def opNNN (w : Word) : Addr := w.extractLsb' 0 12

/-! ### Words and bytes (R45, R60) -/

/-- The opcode two consecutive bytes hold: the byte at the lower address is bits 15:8. -/
def wordOfBytes (hi lo : Byte) : Word := hi ++ lo
/-- The byte an opcode has at its lower address. -/
def hiByte (w : Word) : Byte := w.extractLsb' 8 8
/-- The byte an opcode has at its higher address. -/
def loByte (w : Word) : Byte := w.extractLsb' 0 8

/-! ### Decoding -/

/-- Why bytes are no instruction. -/
inductive DecodeReject where
  /-- The word matches no row of R64: an unrecognised opcode (R66). The step reports it (R86). -/
  | unrecognizedOpcode (w : Word)
  /-- Fewer than the two bytes every instruction has (R60). -/
  | truncated
  deriving DecidableEq, Repr

/-- T = 8: nine instructions selected by N (R64); the other values of N are unrecognised (R66). -/
def decode8 (w : Word) : Except DecodeReject Instr :=
  match opN w with
  | 0x0#4 => .ok (.ldReg (opX w) (opY w))
  | 0x1#4 => .ok (.orReg (opX w) (opY w))
  | 0x2#4 => .ok (.andReg (opX w) (opY w))
  | 0x3#4 => .ok (.xorReg (opX w) (opY w))
  | 0x4#4 => .ok (.addReg (opX w) (opY w))
  | 0x5#4 => .ok (.subReg (opX w) (opY w))
  | 0x6#4 => .ok (.shr (opX w) (opY w))
  | 0x7#4 => .ok (.subnReg (opX w) (opY w))
  | 0xE#4 => .ok (.shl (opX w) (opY w))
  | _ => .error (.unrecognizedOpcode w)

/-- T = E: two instructions selected by NN (R64). -/
def decodeE (w : Word) : Except DecodeReject Instr :=
  match opNN w with
  | 0x9E#8 => .ok (.skp (opX w))
  | 0xA1#8 => .ok (.sknp (opX w))
  | _ => .error (.unrecognizedOpcode w)

/-- T = F: eight instructions selected by NN (R64). -/
def decodeF (w : Word) : Except DecodeReject Instr :=
  match opNN w with
  | 0x07#8 => .ok (.ldVxDT (opX w))
  | 0x0A#8 => .ok (.ldVxK (opX w))
  | 0x15#8 => .ok (.ldDTVx (opX w))
  | 0x18#8 => .ok (.ldSTVx (opX w))
  | 0x1E#8 => .ok (.addI (opX w))
  | 0x33#8 => .ok (.ldB (opX w))
  | 0x55#8 => .ok (.ldMemVx (opX w))
  | 0x65#8 => .ok (.ldVxMem (opX w))
  | _ => .error (.unrecognizedOpcode w)

/-- The decoder (R64 to R67, R84): the top nibble selects the family, and every fixed digit of a pattern must be
present (R65). -/
def decodeWord (w : Word) : Except DecodeReject Instr :=
  match opT w with
  | 0x0#4 =>
    if w = 0x00E0#16 then .ok .cls
    else if w = 0x00EE#16 then .ok .ret
    else .error (.unrecognizedOpcode w)
  | 0x1#4 => .ok (.jp (opNNN w))
  | 0x2#4 => .ok (.call (opNNN w))
  | 0x3#4 => .ok (.seByte (opX w) (opNN w))
  | 0x4#4 => .ok (.sneByte (opX w) (opNN w))
  | 0x5#4 => if opN w = 0 then .ok (.seReg (opX w) (opY w)) else .error (.unrecognizedOpcode w)
  | 0x6#4 => .ok (.ldByte (opX w) (opNN w))
  | 0x7#4 => .ok (.addByte (opX w) (opNN w))
  | 0x8#4 => decode8 w
  | 0x9#4 => if opN w = 0 then .ok (.sneReg (opX w) (opY w)) else .error (.unrecognizedOpcode w)
  | 0xA#4 => .ok (.ldI (opNNN w))
  | 0xB#4 => .ok (.jpV0 (opNNN w))
  | 0xC#4 => .ok (.rnd (opX w) (opNN w))
  | 0xD#4 => .ok (.drw (opX w) (opY w) (opN w).toFin)
  | 0xE#4 => decodeE w
  | _ => decodeF w

/-- Decode the instruction at the front of a list of bytes, and give the bytes after it (R60). -/
def decodeBytes : List Byte → Except DecodeReject (Instr × List Byte)
  | hi :: lo :: rest => (decodeWord (wordOfBytes hi lo)).map (fun i => (i, rest))
  | _ => .error .truncated

/-- The word of a table row numbered from bit 0, as the 16-bit opcode it is: every bit from `nbits` up is 0. -/
def tableWord (nbits w : Nat) : Word := BitVec.ofNat 16 (w % 2 ^ nbits)

/-- The instruction the decoder reads from a word of spec/opcode_table.json, laid out as the hardware stores it (high
byte first, R45). Every row has one word of 16 bits (R60). -/
def decodeTableWord (nbits w : Nat) : Option Instr :=
  match decodeBytes [hiByte (tableWord nbits w), loByte (tableWord nbits w)] with
  | .ok (i, _) => some i
  | .error _ => none

/-! ### Encoding (R62, R64) -/

/-- Format NNN: `T ++ NNN`. -/
def wordNNN (t : Nibble) (nnn : Addr) : Word := t ++ nnn
/-- Formats XNN and X: `T ++ X ++ NN`. -/
def wordXNN (t : Nibble) (x : RegIx) (nn : Byte) : Word := t ++ (BitVec.ofFin x : Nibble) ++ nn
/-- Formats XY and XYN: `T ++ X ++ Y ++ N`. -/
def wordXYN (t : Nibble) (x y : RegIx) (n : Nibble) : Word :=
  t ++ (BitVec.ofFin x : Nibble) ++ (BitVec.ofFin y : Nibble) ++ n

/-- The word of an instruction, from the table of R64. -/
def encode : Instr → Word
  | .cls => 0x00E0#16
  | .ret => 0x00EE#16
  | .jp nnn => wordNNN 0x1 nnn
  | .call nnn => wordNNN 0x2 nnn
  | .seByte x nn => wordXNN 0x3 x nn
  | .sneByte x nn => wordXNN 0x4 x nn
  | .seReg x y => wordXYN 0x5 x y 0x0
  | .ldByte x nn => wordXNN 0x6 x nn
  | .addByte x nn => wordXNN 0x7 x nn
  | .ldReg x y => wordXYN 0x8 x y 0x0
  | .orReg x y => wordXYN 0x8 x y 0x1
  | .andReg x y => wordXYN 0x8 x y 0x2
  | .xorReg x y => wordXYN 0x8 x y 0x3
  | .addReg x y => wordXYN 0x8 x y 0x4
  | .subReg x y => wordXYN 0x8 x y 0x5
  | .shr x y => wordXYN 0x8 x y 0x6
  | .subnReg x y => wordXYN 0x8 x y 0x7
  | .shl x y => wordXYN 0x8 x y 0xE
  | .sneReg x y => wordXYN 0x9 x y 0x0
  | .ldI nnn => wordNNN 0xA nnn
  | .jpV0 nnn => wordNNN 0xB nnn
  | .rnd x nn => wordXNN 0xC x nn
  | .drw x y n => wordXYN 0xD x y (BitVec.ofFin n : Nibble)
  | .skp x => wordXNN 0xE x 0x9E
  | .sknp x => wordXNN 0xE x 0xA1
  | .ldVxDT x => wordXNN 0xF x 0x07
  | .ldVxK x => wordXNN 0xF x 0x0A
  | .ldDTVx x => wordXNN 0xF x 0x15
  | .ldSTVx x => wordXNN 0xF x 0x18
  | .addI x => wordXNN 0xF x 0x1E
  | .ldB x => wordXNN 0xF x 0x33
  | .ldMemVx x => wordXNN 0xF x 0x55
  | .ldVxMem x => wordXNN 0xF x 0x65

/-- The bytes of an instruction as memory holds them: high byte first (R45, R60). -/
def encodeBytes (i : Instr) : List Byte := [hiByte (encode i), loByte (encode i)]

end Sys2Proof
end

