-- ==== Sys2Proof/Machine/Font.lean ====
section
/-! DEFINITION. The default of the parameter FONT (spec/20_memory.md R42, spec/92_eei_decisions.md D18): the 80 bytes
reset puts at 0x000–0x04F. PRESUMED: the spec takes the values from general knowledge of CHIP-8, not from its source
(log entry 1). -/

namespace Sys2Proof.Machine

/-- Glyphs 0 to 7, five rows each. -/
def fontLow : List Byte :=
  [0xF0, 0x90, 0x90, 0x90, 0xF0,  0x20, 0x60, 0x20, 0x20, 0x70,  0xF0, 0x10, 0xF0, 0x80, 0xF0,
   0xF0, 0x10, 0xF0, 0x10, 0xF0,  0x90, 0x90, 0xF0, 0x10, 0x10,  0xF0, 0x80, 0xF0, 0x10, 0xF0,
   0xF0, 0x80, 0xF0, 0x90, 0xF0,  0xF0, 0x10, 0x20, 0x40, 0x40]

/-- Glyphs 8 to F, five rows each. -/
def fontHigh : List Byte :=
  [0xF0, 0x90, 0xF0, 0x90, 0xF0,  0xF0, 0x90, 0xF0, 0x10, 0xF0,  0xF0, 0x90, 0xF0, 0x90, 0x90,
   0xE0, 0x90, 0xE0, 0x90, 0xE0,  0xF0, 0x80, 0x80, 0x80, 0xF0,  0xE0, 0x90, 0x90, 0x90, 0xE0,
   0xF0, 0x80, 0xF0, 0x80, 0xF0,  0xF0, 0x80, 0xF0, 0x80, 0x80]

/-- The 80 bytes of the default font: glyph d is at 5·d (R41, R42). -/
def fontBytes : List Byte := fontLow ++ fontHigh

/-- What a byte of memory that nothing has written reads as: the reset contents (R25), FONT at 0x000–0x04F and 0
above. -/
def resetByte (a : Nat) : Byte := fontBytes.getD a 0

end Sys2Proof.Machine
end

