-- ==== Sys2Proof/Machine/State.lean ====
section
/-! DEFINITION. The state of the machine (spec/10_state.md), whole and as plain data, the reasons a step can stop, and
the state after reset (R25). -/

namespace Sys2Proof.Machine

/-- The five fatal fault kinds F1 to F5 of spec/60_exceptions.md R171. -/
inductive FaultKind where
  /-- F1 (R172): the fetch of any step with PC > 0xFFE. -/
  | programCounterOutOfBounds
  /-- F2 (R173): 2NNN with SP = 16. -/
  | stackOverflow
  /-- F3 (R174): 00EE with SP = 0. -/
  | stackUnderflow
  /-- F4 (R175): FX33, FX55, FX65 or DXYN whose highest address is above 0xFFF. -/
  | memoryAccessOutOfBounds
  /-- F5 (R176): EX9E or EXA1 with V[X] > 0x0F. -/
  | keyIndexOutOfRange
  deriving DecidableEq, Repr

/-- The fault record of R21: what the machine saves when a fatal fault is raised (R88, R181). -/
structure FaultRecord where
  kind   : FaultKind
  /-- PC at that moment -/
  pc     : Word
  /-- the opcode being executed; none for the fetch fault -/
  opcode : Option Word
  /-- SP at that moment, 0..16 -/
  sp     : Fin 17
  deriving DecidableEq, Repr

/-- The memory image as its listed cells. An address that is not listed reads as `resetByte` (R25); the canonical form
is `Memory.wf` in Machine/Ops.lean. -/
abbrev Memory := List Host.Cell

/-- The framebuffer of R19: 2048 one-bit cells, cell (x, y) the bit x + 64*y. Its accessors are `fbCell`, `fbToggle`
and `fbClear` in Machine/Ops.lean. Log entry 11. -/
abbrev Framebuffer := BitVec 2048

/-- Every piece of state of spec/10_state.md R10 to R23, and the two inputs of R24 the model has to hold. -/
structure State where
  /-- V0..VF (R10); `V[15]` is VF (R11) -/
  v            : Vector Byte 16
  /-- the index register I (R12) -/
  i            : Word
  /-- the program counter (R13) -/
  pc           : Word
  /-- stack[0..15] (R14) -/
  stack        : Vector Word 16
  /-- SP, the number of valid entries, 0..16 (R14) -/
  sp           : Fin 17
  /-- the delay timer (R16) -/
  dt           : Byte
  /-- the sound timer (R17) -/
  st           : Byte
  /-- the memory image (R18) -/
  mem          : Memory
  /-- the framebuffer (R19) -/
  fb           : Framebuffer
  /-- the redraw signal (R20) -/
  redraw       : Bool
  /-- set by a fatal fault, cleared by reset only (R21) -/
  halted       : Bool
  /-- the fault record; none while it is not valid (R21, U19) -/
  fault        : Option FaultRecord
  /-- the register that awaits a key, or none (R22) -/
  wait         : Option RegIx
  /-- unrecognised opcodes so far (R23) -/
  anomalyCount : Nat
  /-- address and opcode of the latest unrecognised opcode (R23) -/
  lastAnomaly  : Option (Word × Word)
  /-- THE MODEL'S OWN: the input KEYS as the host holds it now, key k down at index k (R24 (a)). Log entry 4. -/
  keys         : Vector Bool 16
  /-- THE MODEL'S OWN: how many free inputs have been drawn (R24 (b), D15, D17). Log entry 2. -/
  draws        : Nat
  deriving DecidableEq, Repr

/-- Why a step could stop the model. There is no such reason: every fatal fault of R171 is state the spec describes
(`halted` and `fault`, R88), so raising one is a next state, and a halted step changes nothing (R89). Log entry 6. -/
inductive Fault where
  deriving DecidableEq, Repr

/-- Why something has no next state. -/
inductive Refusal where
  /-- Raised by an arm of `exec` for an instruction that has no meaning yet; safe. No arm does. -/
  | notModelled (mnemonic : String)
  /-- L1 (R178, R203): raised by the host move `load` when the image is longer than 3584 bytes; nothing is written. No
  instruction raises it. Safe. -/
  | programTooLarge
  deriving DecidableEq, Repr

/-- What an instruction or a step answers. -/
abbrev Result := Host.Outcome State Fault Refusal

/-- The machine right after reset (R25, R200): every value the spec's own, but for `keys` and `draws` (log entries 2
and 4) and the font bytes `resetByte` gives (log entry 1). -/
def State.reset : State where
  v            := Vector.replicate 16 0
  i            := 0
  pc           := 0x200
  stack        := Vector.replicate 16 0
  sp           := 0
  dt           := 0
  st           := 0
  mem          := []
  fb           := 0
  redraw       := false
  halted       := false
  fault        := none
  wait         := none
  anomalyCount := 0
  lastAnomaly  := none
  keys         := Vector.replicate 16 false
  draws        := 0

end Sys2Proof.Machine
end

