-- ==== Sys2Proof/Machine/Ops.lean ====
section
/-! DEFINITION. The named operations over memory, registers, stack, framebuffer and program counter, and raising a
fault (spec/10_state.md R15, spec/20_memory.md R43 and R44, spec/40_step_cycle.md R81 to R88). -/

namespace Sys2Proof.Machine

/-! ### Memory (R18, R40 to R48) -/

/-- The byte at an address: the listed one, else the reset contents. -/
def Memory.byteAt : Memory → Nat → Byte
  | [], a => resetByte a
  | (k, b) :: rest, a => if k = a then b else Memory.byteAt rest a

/-- List a cell, keeping the addresses rising. -/
def Memory.insertCell : Memory → Nat → Byte → Memory
  | [], a, b => [(a, b)]
  | (k, c) :: rest, a, b =>
    if a < k then (a, b) :: (k, c) :: rest
    else if a = k then (a, b) :: rest
    else (k, c) :: Memory.insertCell rest a b

/-- Unlist an address, so that it reads as its reset contents. -/
def Memory.eraseCell (m : Memory) (a : Nat) : Memory := m.filter (fun c => c.1 != a)

/-- Write one byte, keeping the canonical form. An address above 0xFFF does not exist: the range checks below come
first (R43), and nothing is written there. -/
def Memory.put (m : Memory) (a : Nat) (b : Byte) : Memory :=
  if 4096 ≤ a then m
  else if b = resetByte a then m.eraseCell a
  else m.insertCell a b

/-- Write bytes at rising addresses (R47). -/
def Memory.putBytes : Memory → Nat → List Byte → Memory
  | m, _, [] => m
  | m, a, b :: bs => Memory.putBytes (m.put a b) (a + 1) bs

/-- The canonical form: addresses below 4096 and strictly rising, no cell equal to what an unlisted address reads as. -/
def Memory.wf : Memory → Bool
  | [] => true
  | (a, b) :: rest =>
    decide (a < 4096) && b != resetByte a && rest.all (fun c => decide (a < c.1)) && Memory.wf rest

/-- The range check of R43 and R145 on `n` bytes from `a`: the highest address is at most 0xFFF. An access of no byte
has no highest address and passes (R151, N = 0). -/
def inRange (a n : Nat) : Bool := n == 0 || decide (a + (n - 1) ≤ 0xFFF)

/-- MemRead of `n` consecutive bytes, all of them checked first (R43). -/
def loadBytes (m : Memory) (a n : Nat) : Option (List Byte) :=
  if inRange a n then some ((List.range n).map (fun k => m.byteAt (a + k))) else none

/-- MemWrite of consecutive bytes, all of them checked before the first is written (R43). -/
def storeBytes (m : Memory) (a : Nat) (bs : List Byte) : Option Memory :=
  if inRange a bs.length then some (m.putBytes a bs) else none

/-! ### Registers (R10) -/

/-- `V[x]`. -/
def State.getV (s : State) (x : RegIx) : Byte := s.v.get x

/-- `V[x] <- b`. -/
def State.setV (s : State) (x : RegIx) (b : Byte) : State := { s with v := s.v.set x.val b x.isLt }

/-- `V[k] <- bs[k]` for every k below the number of bytes; registers above keep their value (R144). -/
def State.setRegs (s : State) (bs : List Byte) : State :=
  { s with v := Vector.ofFn (fun k : Fin 16 => bs.getD k.val (s.v.get k)) }

/-! ### Stack (R15) -/

/-- `push(v)`; none when SP = 16. -/
def State.push (s : State) (w : Word) : Option State :=
  if h : s.sp.val < 16 then
    some { s with stack := s.stack.set s.sp.val w h, sp := ⟨s.sp.val + 1, by omega⟩ }
  else none

/-- `pop()`: the popped entry and the state after it; none when SP = 0. The slot keeps its contents (R15). -/
def State.pop (s : State) : Option (Word × State) :=
  if h : 0 < s.sp.val then
    some (s.stack.get ⟨s.sp.val - 1, by omega⟩, { s with sp := ⟨s.sp.val - 1, by omega⟩ })
  else none

/-! ### Framebuffer (R19, R152) -/

/-- The index of cell (x, y): row-major, x + 64*y. -/
def cellIndex (x y : Nat) : Nat := x + 64 * y

/-- `fb(x, y)`. -/
def fbCell (fb : Framebuffer) (x y : Nat) : Bool := fb.getLsbD (cellIndex x y)

/-- `fb(x, y) <- fb(x, y) XOR 1`. -/
def fbToggle (fb : Framebuffer) (x y : Nat) : Framebuffer := fb ^^^ BitVec.twoPow 2048 (cellIndex x y)

/-- Every cell 0. -/
def fbClear : Framebuffer := 0

/-! ### Program counter (R83, R87) -/

/-- The advance: `PC <- PC0 + 2` (R83). It is 16 bits wide; after a fetch PC0 is at most 0xFFE and nothing wraps. -/
def State.advance (s : State) : State := { s with pc := s.pc + 2 }

/-- `skip`: `PC <- (PC + 2) mod 65536` (R87). -/
def State.skip (s : State) : State := { s with pc := s.pc + 2 }

/-- A conditional skip (spec/42_skip.md, R165, R166). -/
def State.skipIf (s : State) (c : Bool) : State := if c then s.skip else s

/-! ### Fetch (R44, R81) -/

/-- `Fetch(PC)`: none when PC > 0xFFE (R82). -/
def State.fetch (s : State) : Option Word :=
  if s.pc.toNat ≤ 0xFFE then some (wordOfBytes (s.mem.byteAt s.pc.toNat) (s.mem.byteAt (s.pc.toNat + 1))) else none

/-! ### Faults and anomalies (R86, R88) -/

/-- `raise <kind>` (R88, R181): record the kind, PC and SP of this moment and the opcode, and halt. Nothing else is
written. -/
def State.raise (s : State) (kind : FaultKind) (opcode : Option Word) : State :=
  { s with halted := true, fault := some { kind := kind, pc := s.pc, opcode := opcode, sp := s.sp } }

/-- The one check of an instruction (R180): its effect where the check passes, else the fault, with nothing of the
effect done (R88). -/
def State.orRaise (s : State) (kind : FaultKind) (i : Instr) (effect : Option State) : Result :=
  match effect with
  | some t => .next t
  | none => .next (s.raise kind (some (encode i)))

/-- `report_unrecognized(PC0, op)` (R86). -/
def State.reportUnrecognized (s : State) (pc0 op : Word) : State :=
  { s with anomalyCount := s.anomalyCount + 1, lastAnomaly := some (pc0, op) }

end Sys2Proof.Machine
end

