-- ==== Sys2Proof/Machine/Flags.lean ====
section
/-! DEFINITION. The flag computations: VF as carry, no borrow, bit shifted out and collision (spec/10_state.md R11,
spec/43_register_alu.md R127 to R133, spec/45_display.md R151), and the order of the two writes (R120). -/

namespace Sys2Proof.Machine

/-- VF, the register the flags are written to (R11). -/
def vf : RegIx := 15

/-- A flag as the byte VF receives: 0 or 1 (R11). -/
def flagByte (c : Bool) : Byte := if c then 1 else 0

/-- The carry of 8XY4: 1 exactly when the unreduced sum exceeds 255 (R127, R133). -/
def carryOut (a b : Byte) : Bool := decide (a.toNat + b.toNat > 255)

/-- The no-borrow flag of `a - b`: 1 exactly when `a >= b`, unsigned (R128, R130, R133). -/
def noBorrow (a b : Byte) : Bool := decide (a.toNat ≥ b.toNat)

/-- The bit a right shift moves out (R129). -/
def lowBit (a : Byte) : Bool := a.getLsbD 0

/-- The bit a left shift moves out (R131). -/
def highBit (a : Byte) : Bool := a.getLsbD 7

/-- The two writes of a flag-writing instruction: VF first, then `V[x]` (R120, D5), so that with x = F the result is
what remains. -/
def State.setFlagThenV (s : State) (x : RegIx) (flag : Bool) (result : Byte) : State :=
  (s.setV vf (flagByte flag)).setV x result

end Sys2Proof.Machine
end

