-- ==== Sys2Proof/Machine/Alu.lean ====
section
/-! DEFINITION. Register loads, arithmetic, logic and the random byte (spec/43_register_alu.md). Operands are read
before any write (R120); byte arithmetic is modulo 256 (R133). -/

namespace Sys2Proof.Machine

/-- R121 `LD Vx, nn`. -/
def execLdByte (x : RegIx) (nn : Byte) (s : State) : Result := .next (s.setV x nn)

/-- R122 `ADD Vx, nn`: no flag. -/
def execAddByte (x : RegIx) (nn : Byte) (s : State) : Result := .next (s.setV x (s.getV x + nn))

/-- R123 `LD Vx, Vy`. -/
def execLdReg (x y : RegIx) (s : State) : Result := .next (s.setV x (s.getV y))

/-- R124 `OR Vx, Vy`. -/
def execOrReg (x y : RegIx) (s : State) : Result := .next (s.setV x (s.getV x ||| s.getV y))

/-- R125 `AND Vx, Vy`. -/
def execAndReg (x y : RegIx) (s : State) : Result := .next (s.setV x (s.getV x &&& s.getV y))

/-- R126 `XOR Vx, Vy`. -/
def execXorReg (x y : RegIx) (s : State) : Result := .next (s.setV x (s.getV x ^^^ s.getV y))

/-- R127 `ADD Vx, Vy`. -/
def execAddReg (x y : RegIx) (s : State) : Result :=
  .next (s.setFlagThenV x (carryOut (s.getV x) (s.getV y)) (s.getV x + s.getV y))

/-- R128 `SUB Vx, Vy`. -/
def execSubReg (x y : RegIx) (s : State) : Result :=
  .next (s.setFlagThenV x (noBorrow (s.getV x) (s.getV y)) (s.getV x - s.getV y))

/-- R129 `SHR Vx`: Y is ignored (R65). -/
def execShr (x : RegIx) (s : State) : Result :=
  .next (s.setFlagThenV x (lowBit (s.getV x)) (s.getV x >>> 1))

/-- R130 `SUBN Vx, Vy`. -/
def execSubnReg (x y : RegIx) (s : State) : Result :=
  .next (s.setFlagThenV x (noBorrow (s.getV y) (s.getV x)) (s.getV y - s.getV x))

/-- R131 `SHL Vx`: Y is ignored (R65). -/
def execShl (x : RegIx) (s : State) : Result :=
  .next (s.setFlagThenV x (highBit (s.getV x)) (s.getV x <<< 1))

/-- R132 `RND Vx, nn`: `V[X] <- RAND AND NN`, RAND the free value of the next draw (log entry 2). -/
def execRnd (x : RegIx) (nn : Byte) (s : State) : Result :=
  .next { s.setV x (Config.randByte s.draws &&& nn) with draws := s.draws + 1 }

end Sys2Proof.Machine
end

