-- ==== Sys2Proof/Machine/Operands.lean ====
section
/-! DEFINITION. The operand forms of the 33 instructions (spec/30_encoding.md R63, spec/44_index_memory.md R145,
spec/45_display.md R151, spec/46_timer_keypad.md R167). -/

namespace Sys2Proof.Machine

/-- `zext_16(NNN)` (R63). -/
def addrOperand (nnn : Addr) : Word := nnn.setWidth 16

/-- The effective address `I + k`, a natural number that is never reduced (R145). -/
def effAddr (s : State) (k : Nat) : Nat := s.i.toNat + k

/-- `V[0]` to `V[x]`, lowest first: what FX55 stores (R143). -/
def regsUpTo (s : State) (x : RegIx) : List Byte := s.v.toList.take (x.val + 1)

/-- The three decimal digits of a byte, hundreds first, one to a byte (R142). -/
def decimalDigits (b : Byte) : List Byte :=
  [BitVec.ofNat 8 (b.toNat / 100), BitVec.ofNat 8 (b.toNat / 10 % 10), BitVec.ofNat 8 (b.toNat % 10)]

/-- The origin of a sprite: `(V[X] mod 64, V[Y] mod 32)` (R151). -/
def spriteOrigin (s : State) (x y : RegIx) : Nat × Nat := ((s.getV x).toNat % 64, (s.getV y).toNat % 32)

/-- The key whose number is the value of `V[x]`; none when it is above 0x0F (R167). -/
def keyOperand (s : State) (x : RegIx) : Option (Fin 16) :=
  if h : (s.getV x).toNat < 16 then some ⟨(s.getV x).toNat, h⟩ else none

/-- `KEYS[k]`: key k is down now (R188). -/
def State.keyDown (s : State) (k : Fin 16) : Bool := s.keys.get k

/-- The keys that are down now, lowest first (R164). -/
def State.pressed (s : State) : List (Fin 16) := (List.finRange 16).filter s.keyDown

end Sys2Proof.Machine
end

