-- ==== Sys2Proof/Machine/ControlFlow.lean ====
section
/-! DEFINITION. The instructions that write PC outright (spec/41_control_flow.md). PC holds PC0 + 2 when a meaning
starts (R83). -/

namespace Sys2Proof.Machine

/-- R100 `RET`: `PC <- pop()`. -/
def execRet (s : State) : Result :=
  s.orRaise .stackUnderflow .ret (s.pop.map fun p => { p.2 with pc := p.1 })

/-- R101 `JP nnn`: `PC <- zext_16(NNN)`. -/
def execJp (nnn : Addr) (s : State) : Result := .next { s with pc := addrOperand nnn }

/-- R102 `CALL nnn`: `push(PC)`, then `PC <- zext_16(NNN)`. -/
def execCall (nnn : Addr) (s : State) : Result :=
  s.orRaise .stackOverflow (.call nnn) ((s.push s.pc).map fun t => { t with pc := addrOperand nnn })

/-- R103 `JP V0, nnn`: `PC <- zext_16(NNN) + zext_16(V[0])`, no reduction. -/
def execJpV0 (nnn : Addr) (s : State) : Result :=
  .next { s with pc := addrOperand nnn + (s.getV 0).setWidth 16 }

end Sys2Proof.Machine
end

