-- ==== Sys2Proof/Machine/Display.lean ====
section
/-! DEFINITION. The display instructions (spec/45_display.md). -/

namespace Sys2Proof.Machine

/-- R150 `CLS`: every cell 0, redraw set. -/
def execCls (s : State) : Result := .next { s with fb := fbClear, redraw := true }

/-- One pixel of a sprite (R151): a set bit toggles its cell, and turning a set cell off is a collision. The pair is
the framebuffer and whether a collision has happened. -/
def drawPixel (bit : Bool) (px py : Nat) (acc : Framebuffer × Bool) : Framebuffer × Bool :=
  if bit then (fbToggle acc.1 px py, acc.2 || fbCell acc.1 px py) else acc

/-- One row of a sprite at row `py`: bit 7 - col of the byte is column col, at x = (ox + col) mod 64 (R151, R152). -/
def drawRow (b : Byte) (ox py : Nat) (acc : Framebuffer × Bool) : Framebuffer × Bool :=
  (List.range 8).foldl (fun acc col => drawPixel (b.getLsbD (7 - col)) ((ox + col) % 64) py acc) acc

/-- The rows of a sprite from `row` on, row r at y = (oy + r) mod 32 (R151). -/
def drawRows : List Byte → Nat → Nat → Nat → Framebuffer × Bool → Framebuffer × Bool
  | [], _, _, _, acc => acc
  | b :: bs, ox, oy, row, acc => drawRows bs ox oy (row + 1) (drawRow b ox ((oy + row) % 32) acc)

/-- R151 `DRW Vx, Vy, n`: the origin is read before VF is written (D6), VF receives the collision flag, redraw is
set. -/
def execDrw (x y : RegIx) (n : Fin 16) (s : State) : Result :=
  s.orRaise .memoryAccessOutOfBounds (.drw x y n)
    ((loadBytes s.mem (effAddr s 0) n.val).map fun bs =>
      let o := spriteOrigin s x y
      let r := drawRows bs o.1 o.2 0 (s.fb, false)
      { s.setV vf (flagByte r.2) with fb := r.1, redraw := true })

end Sys2Proof.Machine
end

