-- ==== Sys2Proof/Machine/IndexMemory.lean ====
section
/-! DEFINITION. The index register and the memory transfers through it (spec/44_index_memory.md). I is never changed by
a transfer (R145). -/

namespace Sys2Proof.Machine

/-- R140 `LD I, nnn`. -/
def execLdI (nnn : Addr) (s : State) : Result := .next { s with i := addrOperand nnn }

/-- R141 `ADD I, Vx`: modulo 65536, no flag. -/
def execAddI (x : RegIx) (s : State) : Result := .next { s with i := s.i + (s.getV x).setWidth 16 }

/-- R142 `LD B, Vx`: the decimal digits of `V[X]` at I, I + 1, I + 2. -/
def execLdB (x : RegIx) (s : State) : Result :=
  s.orRaise .memoryAccessOutOfBounds (.ldB x)
    ((storeBytes s.mem (effAddr s 0) (decimalDigits (s.getV x))).map fun m => { s with mem := m })

/-- R143 `LD [I], Vx`: `mem[I + k] <- V[k]` for k in 0..X. -/
def execLdMemVx (x : RegIx) (s : State) : Result :=
  s.orRaise .memoryAccessOutOfBounds (.ldMemVx x)
    ((storeBytes s.mem (effAddr s 0) (regsUpTo s x)).map fun m => { s with mem := m })

/-- R144 `LD Vx, [I]`: `V[k] <- mem[I + k]` for k in 0..X. -/
def execLdVxMem (x : RegIx) (s : State) : Result :=
  s.orRaise .memoryAccessOutOfBounds (.ldVxMem x)
    ((loadBytes s.mem (effAddr s 0) (x.val + 1)).map s.setRegs)

end Sys2Proof.Machine
end

