-- ==== Sys2Proof/Machine/Skip.lean ====
section
/-! DEFINITION. The compare-and-skip instructions (spec/42_skip.md). -/

namespace Sys2Proof.Machine

/-- R110 `SE Vx, nn`. -/
def execSeByte (x : RegIx) (nn : Byte) (s : State) : Result := .next (s.skipIf (s.getV x == nn))

/-- R111 `SNE Vx, nn`. -/
def execSneByte (x : RegIx) (nn : Byte) (s : State) : Result := .next (s.skipIf (s.getV x != nn))

/-- R112 `SE Vx, Vy`. -/
def execSeReg (x y : RegIx) (s : State) : Result := .next (s.skipIf (s.getV x == s.getV y))

/-- R113 `SNE Vx, Vy`. -/
def execSneReg (x y : RegIx) (s : State) : Result := .next (s.skipIf (s.getV x != s.getV y))

end Sys2Proof.Machine
end

