-- ==== Sys2Proof/Machine/TimerKeypad.lean ====
section
/-! DEFINITION. The timer transfers, the key skips, the key wait and the key poll (spec/46_timer_keypad.md). -/

namespace Sys2Proof.Machine

/-- R160 `LD Vx, DT`. -/
def execLdVxDT (x : RegIx) (s : State) : Result := .next (s.setV x s.dt)

/-- R161 `LD DT, Vx`. -/
def execLdDTVx (x : RegIx) (s : State) : Result := .next { s with dt := s.getV x }

/-- R162 `LD ST, Vx`. -/
def execLdSTVx (x : RegIx) (s : State) : Result := .next { s with st := s.getV x }

/-- R163 `LD Vx, K`: `wait <- X`; KEYS is not read in this step. -/
def execLdVxK (x : RegIx) (s : State) : Result := .next { s with wait := some x }

/-- R165 `SKP Vx`: skip if the key is down. -/
def execSkp (x : RegIx) (s : State) : Result :=
  s.orRaise .keyIndexOutOfRange (.skp x) ((keyOperand s x).map fun k => s.skipIf (s.keyDown k))

/-- R166 `SKNP Vx`: skip if the key is up. -/
def execSknp (x : RegIx) (s : State) : Result :=
  s.orRaise .keyIndexOutOfRange (.sknp x) ((keyOperand s x).map fun k => s.skipIf (!s.keyDown k))

/-- The wait of register x ends with key k (R164): `V[wait] <- k`, `wait <- none`. -/
def State.takeKey (s : State) (x : RegIx) (k : Fin 16) : State :=
  { s.setV x (BitVec.ofNat 8 k.val) with wait := none }

/-- KEY_CHOICE (D15): the member of a non-empty list that a free number picks; every member can be picked. -/
def pickKey (k : Fin 16) (ks : List (Fin 16)) (choice : Nat) : Fin 16 :=
  (k :: ks).getD (choice % (ks.length + 1)) k

/-- The key poll of R164, while register x waits: nothing when no key is down, the key when one is, and a free choice
among the pressed keys when several are (log entry 3). -/
def keyPoll (x : RegIx) (s : State) : State :=
  match s.pressed with
  | [] => s
  | [k] => s.takeKey x k
  | k :: ks => { s.takeKey x (pickKey k ks (Config.keyChoice s.draws)) with draws := s.draws + 1 }

end Sys2Proof.Machine
end

