-- ==== Sys2Proof/Machine/Step.lean ====
section
/-! DEFINITION. One step (spec/40_step_cycle.md R80): halted test, key poll while waiting, else fetch, advance, decode,
execute; and where a single instruction is placed for the next step to fetch. -/

namespace Sys2Proof.Machine

/-- `step()` (R80 to R89), in the order of R180. -/
def step (s : State) : Host.Outcome State Fault Refusal :=
  if s.halted then .next s
  else match s.wait with
    | some x => .next (keyPoll x s)
    | none =>
      match s.fetch with
      | none => .next (s.raise .programCounterOutOfBounds none)
      | some op =>
        match decodeWord op with
        | .ok i => exec i s.advance
        | .error _ => .next (s.advance.reportUnrecognized s.pc op)

/-- Where the next step fetches, once PC is in the fetchable range: PC itself, or the program origin where PC is out of
range. -/
def State.fetchAddr (s : State) : Word := if s.pc.toNat ≤ 0xFFE then s.pc else BitVec.ofNat 16 Config.progBase

/-- The state with one instruction stored where `step` fetches its next one (high byte first, R45), and what the fetch
needs besides: not halted, not waiting, PC in range. At reset only memory changes. Log entry 9. -/
def State.withFetchWord (s : State) (nbits w : Nat) : State :=
  { s with
    pc     := s.fetchAddr
    mem    := s.mem.putBytes s.fetchAddr.toNat [hiByte (tableWord nbits w), loByte (tableWord nbits w)]
    halted := false
    fault  := none
    wait   := none }

end Sys2Proof.Machine
end

