-- ==== Sys2Proof/Machine/HostMoves.lean ====
section
/-! DEFINITION. The host moves of spec/60_exceptions.md R191 that write something: each is atomic and happens between
two steps (R52). Reading state is reading a field; supplying RAND is the free value of log entry 2. -/

namespace Sys2Proof.Machine

/-- One timer under a tick: decremented when it is not 0, and 0 stays 0 (R185). -/
def tickTimer (t : Byte) : Byte := if t.toNat > 0 then t - 1 else t

/-- `tick()` (R185): allowed while halted or waiting too. -/
def State.tick (s : State) : State := { s with dt := tickTimer s.dt, st := tickTimer s.st }

/-- `load(bytes)` (R202 to R204): `mem[0x200 + k] <- bytes[k]`, or ProgramTooLarge with nothing written. -/
def State.load (s : State) (bytes : List Byte) : Result :=
  if bytes.length > Config.progMax then .refused .programTooLarge
  else .next { s with mem := s.mem.putBytes Config.progBase bytes }

/-- What `load` leaves: the state unchanged where the image is too large, since the error does not halt the machine and
is not recorded in it (R203). -/
def State.loadOrKeep (s : State) (bytes : List Byte) : State :=
  match s.load bytes with
  | .next t => t
  | .fault _ => s
  | .refused _ => s

/-- The memory after a reset under the FONT given: FONT at 0x000–0x04F, 0 above (R25, R200). -/
def fontMemory (font : Vector Byte 80) : Memory := Memory.putBytes [] 0 font.toList

/-- `reset()` (R200, R201) under the parameter FONT: it reads nothing of the old state and does not touch KEYS or the
free inputs (R24). -/
def State.hostReset (s : State) (font : Vector Byte 80) : State :=
  { State.reset with mem := fontMemory font, keys := s.keys, draws := s.draws }

/-- A change of KEYS (R188): nothing in the machine. -/
def State.setKeys (s : State) (keys : Vector Bool 16) : State := { s with keys := keys }

/-- `redraw <- 0` (R189). -/
def State.clearRedraw (s : State) : State := { s with redraw := false }

end Sys2Proof.Machine
end

