-- ==== Sys2Proof/Machine/Schedule.lean ====
section
/-! DEFINITION. Runs of the machine under a host: any list of steps and host moves, each whole (spec/20_memory.md R52,
spec/60_exceptions.md R186, R191). -/

namespace Sys2Proof.Machine

/-- One thing that can happen next (R191). -/
inductive Move where
  /-- the engine executes one step (R80) -/
  | step
  /-- `tick()` (R185) -/
  | tick
  /-- `load(bytes)` (R202) -/
  | load (bytes : List Byte)
  /-- `reset()` under a FONT (R200) -/
  | reset (font : Vector Byte 80)
  /-- KEYS becomes this vector (R188) -/
  | setKeys (keys : Vector Bool 16)
  /-- the presentation collaborator clears `redraw` (R189) -/
  | clearRedraw
  deriving DecidableEq, Repr

/-- What a move does. -/
def applyMove (m : Move) (s : State) : Result :=
  match m with
  | .step => Sys2Proof.Machine.step s
  | .tick => .next s.tick
  | .load bytes => .next (s.loadOrKeep bytes)
  | .reset font => .next (s.hostReset font)
  | .setKeys keys => .next (s.setKeys keys)
  | .clearRedraw => .next s.clearRedraw

/-- The moves of a list, one after another, up to the first that does not answer a next state. -/
def runSchedule : List Move → State → Result
  | [], s => .next s
  | m :: ms, s =>
    match applyMove m s with
    | .next t => runSchedule ms t
    | .fault f => .fault f
    | .refused r => .refused r

end Sys2Proof.Machine
end

