-- ==== Sys2Proof/Safety.lean ====
section
/-! DEFINITION. The terms claims are stated in: what a safe state is, the invariant of the machine, what stays
unchanged, and what taking a fault leaves. -/

namespace Sys2Proof.Machine

/-- A run has gone wrong once it halts (R89, R211) or meets an unrecognised opcode (R67, U3). -/
def State.Safe (s : State) : Prop := s.halted = false ∧ s.anomalyCount = 0

/-- The pieces of the state a statement can except from its frame. -/
inductive Part where
  | v | i | pc | stack | sp | dt | st | mem | fb | redraw | halted | fault | wait | anomaly | keys | draws
  deriving DecidableEq, Repr

/-- `t` is `s` but for the parts listed. Memory is compared byte by byte. -/
structure Unchanged (except : List Part) (s t : State) : Prop where
  v : .v ∉ except → t.v = s.v
  i : .i ∉ except → t.i = s.i
  pc : .pc ∉ except → t.pc = s.pc
  stack : .stack ∉ except → t.stack = s.stack
  sp : .sp ∉ except → t.sp = s.sp
  dt : .dt ∉ except → t.dt = s.dt
  st : .st ∉ except → t.st = s.st
  mem : .mem ∉ except → ∀ a, t.mem.byteAt a = s.mem.byteAt a
  fb : .fb ∉ except → t.fb = s.fb
  redraw : .redraw ∉ except → t.redraw = s.redraw
  halted : .halted ∉ except → t.halted = s.halted
  fault : .fault ∉ except → t.fault = s.fault
  wait : .wait ∉ except → t.wait = s.wait
  anomaly : .anomaly ∉ except → t.anomalyCount = s.anomalyCount ∧ t.lastAnomaly = s.lastAnomaly
  keys : .keys ∉ except → t.keys = s.keys
  draws : .draws ∉ except → t.draws = s.draws

/-- Every register but `V[x]` is unchanged. -/
def OtherRegsUnchanged (x : RegIx) (s t : State) : Prop := ∀ r : RegIx, r ≠ x → t.getV r = s.getV r

/-- `t` is `s` after raising a fault of this kind under this opcode (R88, R181; the spec's decisions D10 to D12): the
record is written, the machine is halted, and nothing else is changed. -/
structure FaultTaken (kind : FaultKind) (opcode : Option Word) (s t : State) : Prop where
  halted : t.halted = true
  record : t.fault = some { kind := kind, pc := s.pc, opcode := opcode, sp := s.sp }
  rest : Unchanged [.halted, .fault] s t

/-- The one fault an instruction can raise, if any (R171, R180). -/
def mayRaise : Instr → Option FaultKind
  | .ret => some .stackUnderflow
  | .call _ => some .stackOverflow
  | .drw _ _ _ | .ldB _ | .ldMemVx _ | .ldVxMem _ => some .memoryAccessOutOfBounds
  | .skp _ | .sknp _ => some .keyIndexOutOfRange
  | .cls | .jp _ | .seByte _ _ | .sneByte _ _ | .seReg _ _ | .ldByte _ _ | .addByte _ _ | .ldReg _ _ | .orReg _ _
  | .andReg _ _ | .xorReg _ _ | .addReg _ _ | .subReg _ _ | .shr _ _ | .subnReg _ _ | .shl _ _ | .sneReg _ _ | .ldI _
  | .jpV0 _ | .rnd _ _ | .ldVxDT _ | .ldVxK _ | .ldDTVx _ | .ldSTVx _ | .addI _ => none

/-- The parts of the state an instruction's own effect may write, from the "Writes" line of its rule; raising a fault
writes `halted` and `fault` besides (R88). -/
def mayWrite : Instr → List Part
  | .cls => [.fb, .redraw]
  | .ret => [.pc, .sp]
  | .call _ => [.pc, .sp, .stack]
  | .jp _ | .jpV0 _ | .seByte _ _ | .sneByte _ _ | .seReg _ _ | .sneReg _ _ | .skp _ | .sknp _ => [.pc]
  | .ldI _ | .addI _ => [.i]
  | .drw _ _ _ => [.v, .fb, .redraw]
  | .rnd _ _ => [.v, .draws]
  | .ldDTVx _ => [.dt]
  | .ldSTVx _ => [.st]
  | .ldVxK _ => [.wait]
  | .ldB _ | .ldMemVx _ => [.mem]
  | .ldByte _ _ | .addByte _ _ | .ldReg _ _ | .orReg _ _ | .andReg _ _ | .xorReg _ _ | .addReg _ _ | .subReg _ _
  | .shr _ _ | .subnReg _ _ | .shl _ _ | .ldVxDT _ | .ldVxMem _ => [.v]

/-- The addresses an instruction stores to, computed as its meaning computes them (R142, R143): I to I + 2 for FX33, I to
I + X for FX55, none for any other instruction. -/
def StoresTo : Instr → State → Nat → Prop
  | .ldB _, s, a => effAddr s 0 ≤ a ∧ a ≤ effAddr s 2
  | .ldMemVx x, s, a => effAddr s 0 ≤ a ∧ a ≤ effAddr s x.val
  | .cls, _, _ | .ret, _, _ | .jp _, _, _ | .call _, _, _ | .seByte _ _, _, _ | .sneByte _ _, _, _ | .seReg _ _, _, _
  | .ldByte _ _, _, _ | .addByte _ _, _, _ | .ldReg _ _, _, _ | .orReg _ _, _, _ | .andReg _ _, _, _ | .xorReg _ _, _, _
  | .addReg _ _, _, _ | .subReg _ _, _, _ | .shr _ _, _, _ | .subnReg _ _, _, _ | .shl _ _, _, _ | .sneReg _ _, _, _
  | .ldI _, _, _ | .jpV0 _, _, _ | .rnd _ _, _, _ | .drw _ _ _, _, _ | .skp _, _, _ | .sknp _, _, _ | .ldVxDT _, _, _
  | .ldVxK _, _, _ | .ldDTVx _, _, _ | .ldSTVx _, _, _ | .addI _, _, _ | .ldVxMem _, _, _ => False

/-- The registers an instruction may write, from the table of R11. -/
def mayWriteReg : Instr → RegIx → Bool
  | .ldByte x _, r | .addByte x _, r | .ldReg x _, r | .orReg x _, r | .andReg x _, r | .xorReg x _, r
  | .rnd x _, r | .ldVxDT x, r => r == x
  | .addReg x _, r | .subReg x _, r | .shr x _, r | .subnReg x _, r | .shl x _, r => r == x || r == vf
  | .drw _ _ _, r => r == vf
  | .ldVxMem x, r => decide (r ≤ x)
  | .cls, _ | .ret, _ | .jp _, _ | .call _, _ | .seByte _ _, _ | .sneByte _ _, _ | .seReg _ _, _ | .sneReg _ _, _
  | .ldI _, _ | .jpV0 _, _ | .skp _, _ | .sknp _, _ | .ldVxK _, _ | .ldDTVx _, _ | .ldSTVx _, _ | .addI _, _ | .ldB _, _
  | .ldMemVx _, _ => false

/-- The sprite of n rows at I, drawn at the origin V[x] and V[y] give, has a set bit over cell (px, py) (R151, R152). -/
def SpriteCovers (s : State) (x y : RegIx) (n px py : Nat) : Prop :=
  ∃ row, row < n ∧ ∃ col, col < 8 ∧ (s.mem.byteAt (effAddr s row)).getLsbD (7 - col) = true ∧
    px = ((s.getV x).toNat % 64 + col) % 64 ∧ py = ((s.getV y).toNat % 32 + row) % 32

/-- What holds of every state a machine can be in after reset (log entry 15 says which rules each clause is read
from). -/
structure State.Inv (s : State) : Prop where
  /-- memory keeps its canonical form, so equal memories are equal data -/
  memWf : s.mem.wf = true
  /-- the fault record is valid exactly while the machine is halted (R21) -/
  faultValid : s.halted = s.fault.isSome
  /-- a machine halts only in a step that fetches, so it does not wait for a key (R80, R180) -/
  haltedNotWaiting : s.halted = true → s.wait = none
  /-- the record shows the PC and SP the machine still has (R88, R89), and no opcode exactly for the fetch fault (R171) -/
  recordFits : ∀ f, s.fault = some f →
    f.pc = s.pc ∧ f.sp = s.sp ∧ (f.opcode = none ↔ f.kind = .programCounterOutOfBounds)
  /-- there is a last anomaly exactly when one was counted (R23, U19) -/
  anomalyFits : s.anomalyCount = 0 ↔ s.lastAnomaly = none
  /-- the largest value any rule gives PC is 0x10FE (R13) -/
  pcBound : s.pc.toNat ≤ 0x10FE
  /-- every value ever pushed is at most 0x1000 (R100) -/
  stackBound : ∀ k : Fin 16, (s.stack.get k).toNat ≤ 0x1000

end Sys2Proof.Machine
end

