-- ==== Sys2Proof/Certificates/Slice0/Obligations.lean ====
section
/-! DEFINITION. The statements for the provers, one per rule or property of the spec. `exec i s` is stated on the state
in which PC already holds PC0 + 2 (R83): "PC unchanged" there means that the instruction does not touch PC after the
advance. Docstrings name the rule; where a clause rests on a decision of the spec (D<n>) or on a log entry, they say
so. -/

open Sys2Proof Sys2Proof.Machine

/-! ### Encoding -/

/-- 30_encoding.md R61 to R64: no bit of an encoding is dropped, as a word and as the bytes memory holds. -/
def Obligations.DecodeOfEncodeIsTheInstruction : Prop :=
  ∀ (i : Instr) (rest : List Byte),
    decodeWord (encode i) = .ok i ∧ decodeBytes (encodeBytes i ++ rest) = .ok (i, rest)

/-- 30_encoding.md R61 to R65: each word has one meaning, and encoding what was decoded gives the word back. -/
def Obligations.EncodeOfDecodeIsTheWord : Prop :=
  ∀ (w : Word) (i : Instr), decodeWord w = .ok i → encode i = w

/-- 30_encoding.md section 2: a word decodes iff some row of the opcode map accepts it, and then its instruction's own
row does. -/
def Obligations.DecoderAcceptsExactlyTheMap : Prop :=
  (∀ w : Word, (∃ i, decodeWord w = .ok i) ↔ ∃ r, r ∈ opcodeRows ∧ w &&& r.mask = r.value) ∧
  (∀ (w : Word) (i : Instr), decodeWord w = .ok i → i.row ∈ opcodeRows ∧ w &&& i.row.mask = i.row.value)

/-- 30_encoding.md section 2: "The masks are mutually exclusive: no word matches two rows." -/
def Obligations.NoWordMatchesTwoRows : Prop :=
  opcodeRows.length = 33 ∧
  ∀ (w : Word) (r q : OpcodeRow), r ∈ opcodeRows → q ∈ opcodeRows → w &&& r.mask = r.value → w &&& q.mask = q.value →
    r = q

/-- 30_encoding.md R66 (the extent of the set is the spec's decision D8): the words that are not instructions. -/
def Obligations.UnrecognisedWordsAreThoseOfTheTable : Prop :=
  ∀ w : Word, decodeWord w = .error (.unrecognizedOpcode w) ↔
    (opT w = 0x0 ∧ w ≠ 0x00E0 ∧ w ≠ 0x00EE) ∨
    (opT w = 0x5 ∧ opN w ≠ 0) ∨
    (opT w = 0x8 ∧ opN w ∈ [0x8, 0x9, 0xA, 0xB, 0xC, 0xD, 0xF]) ∨
    (opT w = 0x9 ∧ opN w ≠ 0) ∨
    (opT w = 0xE ∧ opNN w ∉ [0x9E, 0xA1]) ∨
    (opT w = 0xF ∧ opNN w ∉ [0x07, 0x0A, 0x15, 0x18, 0x1E, 0x33, 0x55, 0x65])

/-- 30_encoding.md R61, R64: words written out digit by digit from their patterns, one of each format, decode to their
instruction. The last clause is R66's: 0xF029 is rejected, the spec's decision D8 (log entry 14). -/
def Obligations.SampleWordsDecode : Prop :=
  decodeWord 0x00E0 = .ok .cls ∧ decodeWord 0x2ABC = .ok (.call 0xABC) ∧ decodeWord 0x3B5A = .ok (.seByte 11 0x5A) ∧
  decodeWord 0x8CD5 = .ok (.subReg 12 13) ∧ decodeWord 0xD3E7 = .ok (.drw 3 14 7) ∧
  decodeWord 0xE9A1 = .ok (.sknp 9) ∧ decodeWord 0xF633 = .ok (.ldB 6) ∧
  decodeWord 0xF029 = .error (.unrecognizedOpcode 0xF029)

/-! ### The step -/

/-- 40_step_cycle.md R81: the fetch takes the byte at PC as bits 15:8 and the byte at PC + 1 as bits 7:0, from memory as
it is. -/
def Obligations.FetchIsBigEndian : Prop :=
  ∀ s : State, s.pc.toNat ≤ 0xFFE → ∃ op, s.fetch = some op ∧
    op.extractLsb' 8 8 = s.mem.byteAt s.pc.toNat ∧ op.extractLsb' 0 8 = s.mem.byteAt (s.pc.toNat + 1)

/-- 40_step_cycle.md R83: when the two bytes at PC decode to `i`, a step is `exec i` on the state with PC + 2, and that
addition never wraps. -/
def Obligations.StepRunsTheDecodedInstruction : Prop :=
  ∀ (s : State) (i : Instr), s.halted = false → s.wait = none → s.pc.toNat ≤ 0xFFE →
    decodeWord (wordOfBytes (s.mem.byteAt s.pc.toNat) (s.mem.byteAt (s.pc.toNat + 1))) = .ok i →
    step s = exec i { s with pc := s.pc + 2 } ∧ (s.pc + 2).toNat = s.pc.toNat + 2

/-- 40_step_cycle.md R86 (the form of the report is the spec's decision D9): an unrecognised word advances PC and is
counted, and nothing else changes. -/
def Obligations.UnrecognisedWordIsReportedAndSkipped : Prop :=
  ∀ (s : State) (e : DecodeReject), s.halted = false → s.wait = none → s.pc.toNat ≤ 0xFFE →
    decodeWord (wordOfBytes (s.mem.byteAt s.pc.toNat) (s.mem.byteAt (s.pc.toNat + 1))) = .error e →
    ∃ t, step s = .next t ∧ t.pc = s.pc + 2 ∧ t.anomalyCount = s.anomalyCount + 1 ∧
      t.lastAnomaly = some (s.pc, wordOfBytes (s.mem.byteAt s.pc.toNat) (s.mem.byteAt (s.pc.toNat + 1))) ∧
      Unchanged [.pc, .anomaly] s t

/-- 40_step_cycle.md R82 (that the check is at the fetch, and the record, are the spec's decisions D3, D10, D11): a
fetch with PC > 0xFFE raises ProgramCounterOutOfBounds with no opcode and PC not advanced. -/
def Obligations.FetchOutOfRangeFaults : Prop :=
  ∀ s : State, s.halted = false → s.wait = none → 0xFFE < s.pc.toNat →
    ∃ t, step s = .next t ∧ FaultTaken .programCounterOutOfBounds none s t

/-- 40_step_cycle.md R89 (the spec's decision D10; log entry 6): a halted step changes no state. -/
def Obligations.HaltedStepChangesNothing : Prop :=
  ∀ s : State, s.halted = true → step s = .next s

/-- 40_step_cycle.md R90, R91: a step never blocks; every state has a next one. That a fatal fault and a halted step are
next states is log entry 6. -/
def Obligations.EveryStateHasANextState : Prop :=
  ∀ s : State, ∃ t, step s = .next t

/-- 46_timer_keypad.md R164 (the spec's decision D15; which of several keys is free, log entry 3): while a register
waits, a step with no key down changes nothing, and one with a key down puts the number of a key that is down into the
register and ends the wait; PC is not touched and nothing is fetched. -/
def Obligations.KeyPollWaitsOrTakesAPressedKey : Prop :=
  (∀ (s : State) (x : RegIx), s.halted = false → s.wait = some x → (∀ k : Fin 16, s.keys.get k = false) →
    step s = .next s) ∧
  (∀ (s : State) (x : RegIx) (k : Fin 16), s.halted = false → s.wait = some x → s.keys.get k = true →
    ∃ t j, step s = .next t ∧ s.keys.get j = true ∧ t.getV x = BitVec.ofNat 8 j.val ∧ OtherRegsUnchanged x s t ∧
      t.wait = none ∧ Unchanged [.v, .wait, .draws] s t)

/-! ### Control flow -/

/-- 41_control_flow.md R100: RET pops the most recent entry into PC and leaves the slot; with an empty stack it raises
StackUnderflow and changes nothing else (the record is R88's, D10 to D12). -/
def Obligations.RetPopsOrUnderflows : Prop :=
  (∀ (s : State) (k : Fin 16), s.sp.val = k.val + 1 →
    ∃ t, exec .ret s = .next t ∧ t.pc = s.stack.get k ∧ t.sp.val = k.val ∧ Unchanged [.pc, .sp] s t) ∧
  (∀ s : State, s.sp = 0 → ∃ t, exec .ret s = .next t ∧ FaultTaken .stackUnderflow (some 0x00EE) s t)

/-- 41_control_flow.md R101: JP puts NNN, zero-extended, into PC. -/
def Obligations.JumpSetsPc : Prop :=
  ∀ (nnn : Addr) (s : State), ∃ t, exec (.jp nnn) s = .next t ∧ t.pc.toNat = nnn.toNat ∧ Unchanged [.pc] s t

/-- 41_control_flow.md R102: CALL pushes the advanced PC and puts NNN into PC; with a full stack it raises
StackOverflow and changes nothing else (the record is R88's, D10 to D12). -/
def Obligations.CallPushesOrOverflows : Prop :=
  (∀ (nnn : Addr) (s : State) (k : Fin 16), s.sp.val = k.val →
    ∃ t, exec (.call nnn) s = .next t ∧ t.stack.get k = s.pc ∧ (∀ j : Fin 16, j ≠ k → t.stack.get j = s.stack.get j) ∧
      t.sp.val = k.val + 1 ∧ t.pc.toNat = nnn.toNat ∧ Unchanged [.pc, .stack, .sp] s t) ∧
  (∀ (nnn : Addr) (s : State), s.sp.val = 16 →
    ∃ t, exec (.call nnn) s = .next t ∧ FaultTaken .stackOverflow (some (BitVec.ofNat 16 (0x2000 + nnn.toNat))) s t)

/-- 41_control_flow.md R103 (no reduction of the sum: the spec's decision D3): JP V0 puts NNN + V[0] into PC. -/
def Obligations.JumpV0AddsV0 : Prop :=
  ∀ (nnn : Addr) (s : State), ∃ t, exec (.jpV0 nnn) s = .next t ∧ t.pc.toNat = nnn.toNat + (s.getV 0).toNat ∧
    Unchanged [.pc] s t

/-- The source's property W7 (95_test_vectors.md): whatever runs in between, as long as it leaves the stack as CALL left
it, RET comes back to the instruction after the CALL and to the stack depth before it. -/
def Obligations.CallThenRetReturns : Prop :=
  ∀ (nnn : Addr) (s t u : State), s.sp.val < 16 → exec (.call nnn) s = .next t → u.stack = t.stack → u.sp = t.sp →
    ∃ r, exec .ret u = .next r ∧ r.pc = s.pc ∧ r.sp = s.sp ∧ Unchanged [.pc, .sp] u r

/-- 70_reset_and_hazards.md R211 with 41_control_flow.md R101: a jump to itself is a fixed point of the step. -/
def Obligations.SelfJumpIsAFixedPoint : Prop :=
  ∀ (nnn : Addr) (s : State), s.halted = false → s.wait = none → s.pc.toNat = nnn.toNat → nnn.toNat ≤ 0xFFE →
    256 * (s.mem.byteAt s.pc.toNat).toNat + (s.mem.byteAt (s.pc.toNat + 1)).toNat = 0x1000 + nnn.toNat →
    step s = .next s

/-! ### Skips -/

/-- 42_skip.md R110, R111: compare with a byte, skip the next instruction, write nothing but PC. -/
def Obligations.SkipOnByte : Prop :=
  ∀ (x : RegIx) (nn : Byte) (s : State),
    (∃ t, exec (.seByte x nn) s = .next t ∧ t.pc = (if s.getV x = nn then s.pc + 2 else s.pc) ∧ Unchanged [.pc] s t) ∧
    (∃ t, exec (.sneByte x nn) s = .next t ∧ t.pc = (if s.getV x = nn then s.pc else s.pc + 2) ∧ Unchanged [.pc] s t)

/-- 42_skip.md R112, R113: compare two registers, skip the next instruction, write nothing but PC. -/
def Obligations.SkipOnRegisters : Prop :=
  ∀ (x y : RegIx) (s : State),
    (∃ t, exec (.seReg x y) s = .next t ∧ t.pc = (if s.getV x = s.getV y then s.pc + 2 else s.pc) ∧
      Unchanged [.pc] s t) ∧
    (∃ t, exec (.sneReg x y) s = .next t ∧ t.pc = (if s.getV x = s.getV y then s.pc else s.pc + 2) ∧
      Unchanged [.pc] s t)

/-! ### Registers and arithmetic -/

/-- 43_register_alu.md R121. -/
def Obligations.LoadByteIntoRegister : Prop :=
  ∀ (x : RegIx) (nn : Byte) (s : State), ∃ t, exec (.ldByte x nn) s = .next t ∧ t.getV x = nn ∧
    OtherRegsUnchanged x s t ∧ Unchanged [.v] s t

/-- 43_register_alu.md R122: the sum wraps modulo 256 and no flag is written. -/
def Obligations.AddByteWrapsWithoutFlag : Prop :=
  ∀ (x : RegIx) (nn : Byte) (s : State), ∃ t, exec (.addByte x nn) s = .next t ∧
    (t.getV x).toNat = ((s.getV x).toNat + nn.toNat) % 256 ∧ OtherRegsUnchanged x s t ∧ Unchanged [.v] s t

/-- 43_register_alu.md R123. -/
def Obligations.CopyRegister : Prop :=
  ∀ (x y : RegIx) (s : State), ∃ t, exec (.ldReg x y) s = .next t ∧ t.getV x = s.getV y ∧
    OtherRegsUnchanged x s t ∧ Unchanged [.v] s t

/-- 43_register_alu.md R124, R125, R126: OR, AND and XOR bit by bit over the 8 bits; VF is not written as a flag. -/
def Obligations.BitwiseOperations : Prop :=
  ∀ (x y : RegIx) (s : State),
    (∃ t, exec (.orReg x y) s = .next t ∧
      (∀ j, j < 8 → (t.getV x).getLsbD j = ((s.getV x).getLsbD j || (s.getV y).getLsbD j)) ∧
      OtherRegsUnchanged x s t ∧ Unchanged [.v] s t) ∧
    (∃ t, exec (.andReg x y) s = .next t ∧
      (∀ j, j < 8 → (t.getV x).getLsbD j = ((s.getV x).getLsbD j && (s.getV y).getLsbD j)) ∧
      OtherRegsUnchanged x s t ∧ Unchanged [.v] s t) ∧
    (∃ t, exec (.xorReg x y) s = .next t ∧
      (∀ j, j < 8 → (t.getV x).getLsbD j = ((s.getV x).getLsbD j != (s.getV y).getLsbD j)) ∧
      OtherRegsUnchanged x s t ∧ Unchanged [.v] s t)

/-- 43_register_alu.md R127: VF is the carry and `V[X]` the sum modulo 256. With X = F the result is what remains, as
R127 says (the order of the writes is R120, the spec's decision D5). -/
def Obligations.AddRegistersWithCarry : Prop :=
  ∀ (x y : RegIx) (s : State), ∃ t, exec (.addReg x y) s = .next t ∧
    (t.getV x).toNat = ((s.getV x).toNat + (s.getV y).toNat) % 256 ∧
    (x ≠ vf → t.getV vf = if (s.getV x).toNat + (s.getV y).toNat > 255 then 1 else 0) ∧
    (∀ r : RegIx, r ≠ x → r ≠ vf → t.getV r = s.getV r) ∧ Unchanged [.v] s t

/-- 43_register_alu.md R128: VF is NOT borrow and `V[X]` the difference modulo 256, as integers. With X = F the result
is what remains, as R128 says (the order of the writes is R120, D5). -/
def Obligations.SubtractRegistersWithNoBorrow : Prop :=
  ∀ (x y : RegIx) (s : State), ∃ t, exec (.subReg x y) s = .next t ∧
    ((t.getV x).toNat : Int) = (((s.getV x).toNat : Int) - ((s.getV y).toNat : Int)) % 256 ∧
    (x ≠ vf → t.getV vf = if (s.getV x).toNat ≥ (s.getV y).toNat then 1 else 0) ∧
    (∀ r : RegIx, r ≠ x → r ≠ vf → t.getV r = s.getV r) ∧ Unchanged [.v] s t

/-- 43_register_alu.md R129: VF is the bit shifted out and `V[X]` the half, rounded down; Y is ignored. With X = F the
result is what remains, as R129 says (R120, D5). -/
def Obligations.ShiftRightByOne : Prop :=
  ∀ (x y : RegIx) (s : State), ∃ t, exec (.shr x y) s = .next t ∧
    (t.getV x).toNat = (s.getV x).toNat / 2 ∧
    (x ≠ vf → (t.getV vf).toNat = (s.getV x).toNat % 2) ∧
    (∀ r : RegIx, r ≠ x → r ≠ vf → t.getV r = s.getV r) ∧ Unchanged [.v] s t

/-- 43_register_alu.md R130: the reverse subtraction. With X = F the result is what remains, as R130 says (R120, D5). -/
def Obligations.ReverseSubtractWithNoBorrow : Prop :=
  ∀ (x y : RegIx) (s : State), ∃ t, exec (.subnReg x y) s = .next t ∧
    ((t.getV x).toNat : Int) = (((s.getV y).toNat : Int) - ((s.getV x).toNat : Int)) % 256 ∧
    (x ≠ vf → t.getV vf = if (s.getV y).toNat ≥ (s.getV x).toNat then 1 else 0) ∧
    (∀ r : RegIx, r ≠ x → r ≠ vf → t.getV r = s.getV r) ∧ Unchanged [.v] s t

/-- 43_register_alu.md R131: VF is the bit shifted out and `V[X]` the double modulo 256; Y is ignored. With X = F the
result is what remains, as R131 says (R120, D5). -/
def Obligations.ShiftLeftByOne : Prop :=
  ∀ (x y : RegIx) (s : State), ∃ t, exec (.shl x y) s = .next t ∧
    (t.getV x).toNat = 2 * (s.getV x).toNat % 256 ∧
    (x ≠ vf → (t.getV vf).toNat = (s.getV x).toNat / 128) ∧
    (∀ r : RegIx, r ≠ x → r ≠ vf → t.getV r = s.getV r) ∧ Unchanged [.v] s t

/-- 43_register_alu.md R132 (the spec's decision D17; log entry 2): `V[X]` is the free byte of this draw under the mask
NN, so every bit that is 0 in NN is 0 in `V[X]`, and the next draw is another one. It holds for every value of the free
byte. -/
def Obligations.RandomByteIsMasked : Prop :=
  ∀ (x : RegIx) (nn : Byte) (s : State), ∃ t, exec (.rnd x nn) s = .next t ∧
    t.getV x = Config.randByte s.draws &&& nn ∧ (∀ j, nn.getLsbD j = false → (t.getV x).getLsbD j = false) ∧
    t.draws = s.draws + 1 ∧ OtherRegsUnchanged x s t ∧ Unchanged [.v, .draws] s t

/-! ### Index register and memory -/

/-- 44_index_memory.md R140. -/
def Obligations.LoadIndex : Prop :=
  ∀ (nnn : Addr) (s : State), ∃ t, exec (.ldI nnn) s = .next t ∧ t.i.toNat = nnn.toNat ∧ Unchanged [.i] s t

/-- 44_index_memory.md R141 (the width of the sum is the spec's decision D2): modulo 65536, and VF is not written. -/
def Obligations.AddToIndex : Prop :=
  ∀ (x : RegIx) (s : State), ∃ t, exec (.addI x) s = .next t ∧ t.i.toNat = (s.i.toNat + (s.getV x).toNat) % 65536 ∧
    Unchanged [.i] s t

/-- 44_index_memory.md R142: the three digits at I, I + 1, I + 2 and every other byte as before; out of range it raises
MemoryAccessOutOfBounds and writes nothing (the record is R88's, D1, D10 to D12). -/
def Obligations.StoreDecimalDigits : Prop :=
  ∀ (x : RegIx) (s : State),
    (effAddr s 2 ≤ 0xFFF → ∃ t, exec (.ldB x) s = .next t ∧
      (t.mem.byteAt (effAddr s 0)).toNat = (s.getV x).toNat / 100 ∧
      (t.mem.byteAt (effAddr s 1)).toNat = (s.getV x).toNat / 10 % 10 ∧
      (t.mem.byteAt (effAddr s 2)).toNat = (s.getV x).toNat % 10 ∧
      (∀ a, a < effAddr s 0 ∨ effAddr s 2 < a → t.mem.byteAt a = s.mem.byteAt a) ∧ Unchanged [.mem] s t) ∧
    (0xFFF < effAddr s 2 → ∃ t, exec (.ldB x) s = .next t ∧
      FaultTaken .memoryAccessOutOfBounds (some (BitVec.ofNat 16 (0xF033 + 256 * x.val))) s t)

/-- 44_index_memory.md R143: `mem[I + k] = V[k]` for k in 0..X, every other byte as before, I and the registers
unchanged; out of range it raises MemoryAccessOutOfBounds and writes nothing (the record is R88's, D1, D10 to D12). -/
def Obligations.StoreRegisters : Prop :=
  ∀ (x : RegIx) (s : State),
    (effAddr s x.val ≤ 0xFFF → ∃ t, exec (.ldMemVx x) s = .next t ∧
      (∀ k : RegIx, k ≤ x → t.mem.byteAt (effAddr s k.val) = s.getV k) ∧
      (∀ a, a < effAddr s 0 ∨ effAddr s x.val < a → t.mem.byteAt a = s.mem.byteAt a) ∧ Unchanged [.mem] s t) ∧
    (0xFFF < effAddr s x.val → ∃ t, exec (.ldMemVx x) s = .next t ∧
      FaultTaken .memoryAccessOutOfBounds (some (BitVec.ofNat 16 (0xF055 + 256 * x.val))) s t)

/-- 44_index_memory.md R144: `V[k] = mem[I + k]` for k in 0..X, registers above X, I and memory unchanged; out of range
it raises MemoryAccessOutOfBounds and writes nothing (the record is R88's, D1, D10 to D12). -/
def Obligations.LoadRegisters : Prop :=
  ∀ (x : RegIx) (s : State),
    (effAddr s x.val ≤ 0xFFF → ∃ t, exec (.ldVxMem x) s = .next t ∧
      (∀ k : RegIx, k ≤ x → t.getV k = s.mem.byteAt (effAddr s k.val)) ∧
      (∀ k : RegIx, x < k → t.getV k = s.getV k) ∧ Unchanged [.v] s t) ∧
    (0xFFF < effAddr s x.val → ∃ t, exec (.ldVxMem x) s = .next t ∧
      FaultTaken .memoryAccessOutOfBounds (some (BitVec.ofNat 16 (0xF065 + 256 * x.val))) s t)

/-- The source's property W9 (95_test_vectors.md): what FX55 stored, FX65 loads back exactly, into whatever register
file, from the same I. -/
def Obligations.StoredRegistersLoadBack : Prop :=
  ∀ (x : RegIx) (s t u : State), effAddr s x.val ≤ 0xFFF → exec (.ldMemVx x) s = .next t →
    (∀ a, u.mem.byteAt a = t.mem.byteAt a) → u.i = s.i →
    ∃ r, exec (.ldVxMem x) u = .next r ∧ (∀ k : RegIx, k ≤ x → r.getV k = s.getV k) ∧
      (∀ k : RegIx, x < k → r.getV k = u.getV k)

/-- 20_memory.md R55: what FX33 or FX55 stored is seen by the fetch of the very next step, whichever of the two bytes at
PC it overwrote, and a byte it did not overwrite is fetched as it was. Digit d of a byte is its decimal digit with weight
`10 ^ (2 - d)` (R142). -/
def Obligations.NextFetchSeesTheStore : Prop :=
  (∀ (x : RegIx) (s : State), effAddr s x.val ≤ 0xFFF → s.pc.toNat ≤ 0xFFE →
    ∃ t op, exec (.ldMemVx x) s = .next t ∧ t.fetch = some op ∧
      (∀ k : RegIx, k ≤ x → s.pc.toNat = effAddr s k.val → hiByte op = s.getV k) ∧
      (∀ k : RegIx, k ≤ x → s.pc.toNat + 1 = effAddr s k.val → loByte op = s.getV k) ∧
      (¬ StoresTo (.ldMemVx x) s s.pc.toNat → hiByte op = s.mem.byteAt s.pc.toNat) ∧
      (¬ StoresTo (.ldMemVx x) s (s.pc.toNat + 1) → loByte op = s.mem.byteAt (s.pc.toNat + 1))) ∧
  (∀ (x : RegIx) (s : State), effAddr s 2 ≤ 0xFFF → s.pc.toNat ≤ 0xFFE →
    ∃ t op, exec (.ldB x) s = .next t ∧ t.fetch = some op ∧
      (∀ d, d ≤ 2 → s.pc.toNat = effAddr s d → (hiByte op).toNat = (s.getV x).toNat / 10 ^ (2 - d) % 10) ∧
      (∀ d, d ≤ 2 → s.pc.toNat + 1 = effAddr s d → (loByte op).toNat = (s.getV x).toNat / 10 ^ (2 - d) % 10) ∧
      (¬ StoresTo (.ldB x) s s.pc.toNat → hiByte op = s.mem.byteAt s.pc.toNat) ∧
      (¬ StoresTo (.ldB x) s (s.pc.toNat + 1) → loByte op = s.mem.byteAt (s.pc.toNat + 1)))

/-! ### Display -/

/-- 45_display.md R150: every cell 0 and redraw set, whatever was there; VF is not written. -/
def Obligations.ClearScreen : Prop :=
  ∀ s : State, ∃ t, exec .cls s = .next t ∧ (∀ x y, x < 64 → y < 32 → fbCell t.fb x y = false) ∧ t.redraw = true ∧
    Unchanged [.fb, .redraw] s t

/-- 45_display.md R151 (that the origin is taken before VF is reset is the spec's decision D6): every cell under a set
bit of the sprite is flipped and no other, VF says whether a set cell was turned off, redraw is set, and I, memory and
the other registers are unchanged; out of range (D1) MemoryAccessOutOfBounds is raised and nothing is drawn. -/
def Obligations.DrawSprite : Prop :=
  ∀ (x y : RegIx) (n : Fin 16) (s : State),
    (n = 0 ∨ effAddr s (n.val - 1) ≤ 0xFFF → ∃ t, exec (.drw x y n) s = .next t ∧
      (∀ px py, px < 64 → py < 32 →
        (SpriteCovers s x y n.val px py → fbCell t.fb px py = !fbCell s.fb px py) ∧
        (¬ SpriteCovers s x y n.val px py → fbCell t.fb px py = fbCell s.fb px py)) ∧
      ((∃ px py, px < 64 ∧ py < 32 ∧ SpriteCovers s x y n.val px py ∧ fbCell s.fb px py = true) → t.getV vf = 1) ∧
      ((¬ ∃ px py, px < 64 ∧ py < 32 ∧ SpriteCovers s x y n.val px py ∧ fbCell s.fb px py = true) → t.getV vf = 0) ∧
      OtherRegsUnchanged vf s t ∧ t.redraw = true ∧ Unchanged [.v, .fb, .redraw] s t) ∧
    (n ≠ 0 ∧ 0xFFF < effAddr s (n.val - 1) → ∃ t, exec (.drw x y n) s = .next t ∧
      FaultTaken .memoryAccessOutOfBounds (some (BitVec.ofNat 16 (0xD000 + 256 * x.val + 16 * y.val + n.val))) s t)

/-- The source's property W6 (95_test_vectors.md): drawing the same sprite twice at the same place leaves the
framebuffer as it was before the first, and reports a collision the second time if the sprite drew a cell that was
clear. `u` is any state between the two that has the same sprite, origin and framebuffer. -/
def Obligations.DrawingTwiceRestoresTheScreen : Prop :=
  ∀ (x y : RegIx) (n : Fin 16) (s t u : State), n = 0 ∨ effAddr s (n.val - 1) ≤ 0xFFF →
    exec (.drw x y n) s = .next t → u.fb = t.fb → u.i = s.i → (∀ a, u.mem.byteAt a = s.mem.byteAt a) →
    u.getV x = s.getV x → u.getV y = s.getV y →
    ∃ r, exec (.drw x y n) u = .next r ∧ (∀ px py, px < 64 → py < 32 → fbCell r.fb px py = fbCell s.fb px py) ∧
      ((∃ px py, px < 64 ∧ py < 32 ∧ SpriteCovers s x y n.val px py ∧ fbCell s.fb px py = false) → r.getV vf = 1)

/-! ### Timers and keypad -/

/-- 46_timer_keypad.md R160, R161, R162 (the directions are the spec's decision D14): the three timer transfers. -/
def Obligations.TimerTransfers : Prop :=
  ∀ (x : RegIx) (s : State),
    (∃ t, exec (.ldVxDT x) s = .next t ∧ t.getV x = s.dt ∧ OtherRegsUnchanged x s t ∧ Unchanged [.v] s t) ∧
    (∃ t, exec (.ldDTVx x) s = .next t ∧ t.dt = s.getV x ∧ Unchanged [.dt] s t) ∧
    (∃ t, exec (.ldSTVx x) s = .next t ∧ t.st = s.getV x ∧ Unchanged [.st] s t)

/-- 46_timer_keypad.md R163 (the spec's decision D15): FX0A sets `wait` to X and does nothing else. -/
def Obligations.KeyWaitBegins : Prop :=
  ∀ (x : RegIx) (s : State), ∃ t, exec (.ldVxK x) s = .next t ∧ t.wait = some x ∧ Unchanged [.wait] s t

/-- 46_timer_keypad.md R165, R166, R167 (the spec's decision D16): with the key number k = V[X] in 0..15, SKP skips
exactly when key k is down and SKNP exactly when it is up; above 15 both raise KeyIndexOutOfRange. -/
def Obligations.KeySkips : Prop :=
  (∀ (x : RegIx) (k : Fin 16) (s : State), (s.getV x).toNat = k.val →
    (∃ t, exec (.skp x) s = .next t ∧ t.pc = (if s.keys.get k then s.pc + 2 else s.pc) ∧ Unchanged [.pc] s t) ∧
    (∃ t, exec (.sknp x) s = .next t ∧ t.pc = (if s.keys.get k then s.pc else s.pc + 2) ∧ Unchanged [.pc] s t)) ∧
  (∀ (x : RegIx) (s : State), 15 < (s.getV x).toNat →
    (∃ t, exec (.skp x) s = .next t ∧
      FaultTaken .keyIndexOutOfRange (some (BitVec.ofNat 16 (0xE09E + 256 * x.val))) s t) ∧
    (∃ t, exec (.sknp x) s = .next t ∧
      FaultTaken .keyIndexOutOfRange (some (BitVec.ofNat 16 (0xE0A1 + 256 * x.val))) s t))

/-! ### Rules of the whole machine -/

/-- 10_state.md R28 with the rules of each part (R12, R14, R16, R17, R19, R20, R22, R23): an instruction that does not
fault writes only the parts its rule names (`mayWrite`), and of memory only the bytes it stores to (`StoresTo`, the
addresses of R142 and R143). The fault record is written only by an instruction that can raise a fault (R180) and took
it, and then nothing else is (R88, the spec's decisions D10 to D12). `draws` is the model's own (log entry 2). -/
def Obligations.InstructionsWriteOnlyTheirParts : Prop :=
  ∀ (i : Instr) (s t : State), exec i s = .next t →
    (Unchanged (mayWrite i) s t ∧ ∀ a, ¬ StoresTo i s a → t.mem.byteAt a = s.mem.byteAt a) ∨
    (∃ kind, mayRaise i = some kind ∧ FaultTaken kind (some (encode i)) s t)

/-- 10_state.md section 1, the table "Use of V registers by instruction": an instruction writes no other register, VF
included. -/
def Obligations.InstructionsWriteOnlyTheirRegisters : Prop :=
  ∀ (i : Instr) (s t : State) (r : RegIx), exec i s = .next t → mayWriteReg i r = false → t.getV r = s.getV r

/-- 60_exceptions.md R180, R181 (the spec's decisions D10 to D12): an instruction can raise only the one fault listed
for it (`mayRaise`), with its own opcode, and a faulting instruction has done nothing else. -/
def Obligations.FaultsAreListedAndPrecise : Prop :=
  ∀ (i : Instr) (s t : State), exec i s = .next t → s.halted = false → t.halted = true →
    ∃ kind, mayRaise i = some kind ∧ FaultTaken kind (some (encode i)) s t

/-- 10_state.md R28: a step never clears `redraw`, `halted` or `last_anomaly`, and `anomaly_count` stays or grows by
1. -/
def Obligations.StepNeverClearsTheHostsRecords : Prop :=
  ∀ s t : State, step s = .next t →
    (s.redraw = true → t.redraw = true) ∧ (s.halted = true → t.halted = true) ∧
    (s.lastAnomaly.isSome = true → t.lastAnomaly.isSome = true) ∧
    (t.anomalyCount = s.anomalyCount ∨ t.anomalyCount = s.anomalyCount + 1)

/-- 10_state.md R17, R20, R23: no step reads ST, `redraw`, the anomaly record or the fault record. Being equal but for
these is one relation that a step keeps, so it holds along two runs of any length. The two states have the same `draws`,
so both runs draw the same RAND and KEY_CHOICE (log entries 2 and 3), and the same KEYS (log entry 4). -/
def Obligations.HostsRecordsInfluenceNoStep : Prop :=
  ∀ s s' t : State, Unchanged [.st, .redraw, .anomaly, .fault] s s' → step s = .next t →
    ∃ t', step s' = .next t' ∧ Unchanged [.st, .redraw, .anomaly, .fault] t t'

/-- 40_step_cycle.md R90: KEYS is read only by EX9E, EXA1 and the key poll, so any other instruction does the same under
any KEYS. KEYS stands in State by log entry 4; both runs draw the same RAND (log entry 2). -/
def Obligations.OnlyKeySkipsReadKeys : Prop :=
  ∀ (i : Instr) (s t : State) (keys : Vector Bool 16), (∀ x, i ≠ .skp x ∧ i ≠ .sknp x) → exec i s = .next t →
    ∃ t', exec i { s with keys := keys } = .next t' ∧ Unchanged [.keys] t t'

/-! ### The invariant -/

/-- The state after reset meets the invariant (log entry 15). -/
def Obligations.ResetMeetsTheInvariant : Prop := State.reset.Inv

/-- Every step keeps the invariant (log entry 15): memory stays canonical, the fault record is valid exactly while
halted and fits PC and SP, PC is at most 0x10FE (R13), every stack entry at most 0x1000 (R100). -/
def Obligations.StepKeepsTheInvariant : Prop :=
  ∀ s t : State, s.Inv → step s = .next t → t.Inv

/-- Every move of the host's list (R191), a step included, answers a next state and keeps the invariant (log entry 15).
That a load of more than 3584 bytes answers the state as it was is the model's choice `loadOrKeep` (log entry 16): the
load itself is refused. -/
def Obligations.EveryMoveKeepsTheInvariant : Prop :=
  ∀ (m : Move) (s : State), s.Inv → ∃ t, applyMove m s = .next t ∧ t.Inv

/-- Any interleaving of steps and host moves (R186, R191) runs to its end and keeps the invariant (log entry 15). That a
schedule goes on after a load of more than 3584 bytes, with the state as it was, is the model's choice `loadOrKeep` (log
entry 16). -/
def Obligations.EveryScheduleKeepsTheInvariant : Prop :=
  ∀ (ms : List Move) (s : State), s.Inv → ∃ t, runSchedule ms s = .next t ∧ t.Inv

/-! ### Reset and host moves -/

/-- 10_state.md R25: the reset table, but for the font bytes. The rows for `halted`, `fault`, `wait` and the anomaly
record are the spec's decision D19; `keys` and `draws` are the model's own (log entries 2 and 4) and not in the
table. -/
def Obligations.ResetValues : Prop :=
  (∀ r : RegIx, State.reset.getV r = 0) ∧ State.reset.i = 0 ∧ State.reset.pc = 0x0200 ∧ State.reset.sp = 0 ∧
  (∀ k : Fin 16, State.reset.stack.get k = 0) ∧ State.reset.dt = 0 ∧ State.reset.st = 0 ∧
  (∀ a, 0x050 ≤ a → State.reset.mem.byteAt a = 0) ∧ (∀ x y, fbCell State.reset.fb x y = false) ∧
  State.reset.redraw = false ∧ State.reset.halted = false ∧ State.reset.fault = none ∧ State.reset.wait = none ∧
  State.reset.anomalyCount = 0 ∧ State.reset.lastAnomaly = none

/-- 70_reset_and_hazards.md R200, R201 (D18, D19): under any FONT the host's reset gives the reset table with that FONT at
0x000–0x04F, whatever the state was, and does not touch KEYS (log entry 4). -/
def Obligations.HostResetForgetsTheRun : Prop :=
  ∀ (s : State) (font : Vector Byte 80),
    (∀ a : Fin 80, (s.hostReset font).mem.byteAt a.val = font.get a) ∧
    (∀ a, 80 ≤ a → (s.hostReset font).mem.byteAt a = 0) ∧
    (s.hostReset font).keys = s.keys ∧ Unchanged [.mem, .keys, .draws] State.reset (s.hostReset font) ∧
    ((∀ a : Fin 80, font.get a = fontBytes.getD a.val 0) → (s.hostReset font).mem = State.reset.mem)

/-- 60_exceptions.md R185 (the floor at 0 is the spec's decision D13): a tick takes 1 from each timer that is not 0. -/
def Obligations.TickDecrementsToZero : Prop :=
  ∀ s : State, s.tick.dt.toNat = s.dt.toNat - 1 ∧ s.tick.st.toNat = s.st.toNat - 1 ∧ Unchanged [.dt, .st] s s.tick

/-- 70_reset_and_hazards.md R202, R203, R204 (the spec's decisions D21, D27): an image of at most 3584 bytes is copied to
0x200 and nothing else is written; a longer one is refused (log entry 16). -/
def Obligations.LoadCopiesOrRefuses : Prop :=
  ∀ (s : State) (bytes : List Byte),
    (bytes.length ≤ 3584 → ∃ t, s.load bytes = .next t ∧
      (∀ k (h : k < bytes.length), t.mem.byteAt (0x200 + k) = bytes[k]) ∧
      (∀ a, a < 0x200 ∨ 0x200 + bytes.length ≤ a → t.mem.byteAt a = s.mem.byteAt a) ∧ Unchanged [.mem] s t) ∧
    (3584 < bytes.length → s.load bytes = .refused .programTooLarge)
end

