-- ==== Sys2Proof/Laws/Decode.lean ====
section
/-! SUPPORT. Words as numbers: the fields of a word, the words the encoder puts together, and that the fields of such a
word are the ones it was given (R61, R62). -/

namespace Sys2Proof

variable (t n : Nibble) (x y : RegIx) (nn : Byte) (nnn : Addr) (w : Word)

/-! ### Fields as numbers -/

theorem opT_toNat : (opT w).toNat = w.toNat / 4096 % 16 := by
  simp [opT, BitVec.extractLsb'_toNat, Nat.shiftRight_eq_div_pow]

theorem opX_val : (opX w).val = w.toNat / 256 % 16 := by
  simp [opX, Nat.shiftRight_eq_div_pow]

theorem opY_val : (opY w).val = w.toNat / 16 % 16 := by
  simp [opY, Nat.shiftRight_eq_div_pow]

theorem opN_toNat : (opN w).toNat = w.toNat % 16 := by simp [opN]

theorem opNN_toNat : (opNN w).toNat = w.toNat % 256 := by simp [opNN]

theorem opNNN_toNat : (opNNN w).toNat = w.toNat % 4096 := by simp [opNNN]

/-! ### Words as numbers -/

/-- Appending is shifting by the width of the lower part and adding. -/
theorem append_toNat {a b : Nat} (p : BitVec a) (q : BitVec b) : (p ++ q).toNat = p.toNat * 2 ^ b + q.toNat := by
  rw [BitVec.toNat_append, ← Nat.shiftLeft_add_eq_or_of_lt q.isLt, Nat.shiftLeft_eq]

theorem wordOfBytes_toNat (hi lo : Byte) : (wordOfBytes hi lo).toNat = 256 * hi.toNat + lo.toNat := by
  have := append_toNat hi lo
  simp only [wordOfBytes] at *
  omega

theorem wordNNN_toNat : (wordNNN t nnn).toNat = 4096 * t.toNat + nnn.toNat := by
  have := append_toNat t nnn
  simp only [wordNNN] at *
  omega

theorem wordXNN_toNat : (wordXNN t x nn).toNat = 4096 * t.toNat + 256 * x.val + nn.toNat := by
  have h1 := append_toNat t (BitVec.ofFin x : Nibble)
  have h2 := append_toNat (t ++ (BitVec.ofFin x : Nibble)) nn
  have h3 : (BitVec.ofFin x : Nibble).toNat = x.val := rfl
  simp only [wordXNN] at *
  omega

theorem wordXYN_toNat : (wordXYN t x y n).toNat = 4096 * t.toNat + 256 * x.val + 16 * y.val + n.toNat := by
  have h1 := append_toNat t (BitVec.ofFin x : Nibble)
  have h2 := append_toNat (t ++ (BitVec.ofFin x : Nibble)) (BitVec.ofFin y : Nibble)
  have h3 := append_toNat (t ++ (BitVec.ofFin x : Nibble) ++ (BitVec.ofFin y : Nibble)) n
  have h4 : (BitVec.ofFin x : Nibble).toNat = x.val := rfl
  have h5 : (BitVec.ofFin y : Nibble).toNat = y.val := rfl
  simp only [wordXYN] at *
  omega

theorem hiByte_toNat : (hiByte w).toNat = w.toNat / 256 := by
  have := w.isLt
  simp only [hiByte, BitVec.extractLsb'_toNat, Nat.shiftRight_eq_div_pow]
  omega

theorem loByte_toNat : (loByte w).toNat = w.toNat % 256 := by simp [loByte]

/-- The two bytes of a word put together are the word (R45). -/
@[simp] theorem wordOfBytes_bytes : wordOfBytes (hiByte w) (loByte w) = w := by
  apply BitVec.eq_of_toNat_eq
  rw [wordOfBytes_toNat, hiByte_toNat, loByte_toNat]
  omega

@[simp] theorem hiByte_wordOfBytes (hi lo : Byte) : hiByte (wordOfBytes hi lo) = hi := by
  apply BitVec.eq_of_toNat_eq; rw [hiByte_toNat, wordOfBytes_toNat]; omega

@[simp] theorem loByte_wordOfBytes (hi lo : Byte) : loByte (wordOfBytes hi lo) = lo := by
  apply BitVec.eq_of_toNat_eq; rw [loByte_toNat, wordOfBytes_toNat]; omega

/-! ### The fields of a word put together -/

@[simp] theorem opT_wordNNN : opT (wordNNN t nnn) = t := by
  apply BitVec.eq_of_toNat_eq; rw [opT_toNat, wordNNN_toNat]; omega

@[simp] theorem opNNN_wordNNN : opNNN (wordNNN t nnn) = nnn := by
  apply BitVec.eq_of_toNat_eq; rw [opNNN_toNat, wordNNN_toNat]; omega

@[simp] theorem opT_wordXNN : opT (wordXNN t x nn) = t := by
  apply BitVec.eq_of_toNat_eq; rw [opT_toNat, wordXNN_toNat]; omega

@[simp] theorem opX_wordXNN : opX (wordXNN t x nn) = x := by
  apply Fin.ext; rw [opX_val, wordXNN_toNat]; omega

@[simp] theorem opNN_wordXNN : opNN (wordXNN t x nn) = nn := by
  apply BitVec.eq_of_toNat_eq; rw [opNN_toNat, wordXNN_toNat]; omega

@[simp] theorem opT_wordXYN : opT (wordXYN t x y n) = t := by
  apply BitVec.eq_of_toNat_eq; rw [opT_toNat, wordXYN_toNat]; omega

@[simp] theorem opX_wordXYN : opX (wordXYN t x y n) = x := by
  apply Fin.ext; rw [opX_val, wordXYN_toNat]; omega

@[simp] theorem opY_wordXYN : opY (wordXYN t x y n) = y := by
  apply Fin.ext; rw [opY_val, wordXYN_toNat]; omega

@[simp] theorem opN_wordXYN : opN (wordXYN t x y n) = n := by
  apply BitVec.eq_of_toNat_eq; rw [opN_toNat, wordXYN_toNat]; omega

/-! ### A word is what its fields make it -/

theorem wordNNN_fields : wordNNN (opT w) (opNNN w) = w := by
  apply BitVec.eq_of_toNat_eq; rw [wordNNN_toNat, opT_toNat, opNNN_toNat]; omega

theorem wordXNN_fields : wordXNN (opT w) (opX w) (opNN w) = w := by
  apply BitVec.eq_of_toNat_eq; rw [wordXNN_toNat, opT_toNat, opX_val, opNN_toNat]; omega

theorem wordXYN_fields : wordXYN (opT w) (opX w) (opY w) (opN w) = w := by
  apply BitVec.eq_of_toNat_eq; rw [wordXYN_toNat, opT_toNat, opX_val, opY_val, opN_toNat]; omega

/-! ### Masks: what a row of the opcode map compares (R64) -/

theorem and_maskNNN : w &&& 0xF000#16 = wordNNN (opT w) 0 := by
  have h := BitVec.and_append (x₁ := opT w) (x₂ := 0xF#4) (y₁ := opNNN w) (y₂ := 0#12)
  rw [show opT w &&& 0xF#4 = opT w from BitVec.and_allOnes, BitVec.and_zero] at h
  have e : w = opT w ++ opNNN w := (wordNNN_fields w).symm
  conv_lhs => rw [e]
  exact h

theorem and_maskXNN : w &&& 0xF0FF#16 = wordXNN (opT w) 0 (opNN w) := by
  have h := BitVec.and_append (x₁ := opT w ++ (BitVec.ofFin (opX w) : Nibble)) (x₂ := 0xF#4 ++ 0x0#4)
    (y₁ := opNN w) (y₂ := 0xFF#8)
  have h2 := BitVec.and_append (x₁ := opT w) (x₂ := 0xF#4) (y₁ := (BitVec.ofFin (opX w) : Nibble)) (y₂ := 0x0#4)
  rw [h2, show opT w &&& 0xF#4 = opT w from BitVec.and_allOnes, BitVec.and_zero,
    show opNN w &&& 0xFF#8 = opNN w from BitVec.and_allOnes] at h
  have e : w = opT w ++ (BitVec.ofFin (opX w) : Nibble) ++ opNN w := (wordXNN_fields w).symm
  conv_lhs => rw [e]
  exact h

theorem and_maskXYN : w &&& 0xF00F#16 = wordXYN (opT w) 0 0 (opN w) := by
  have h := BitVec.and_append
    (x₁ := opT w ++ (BitVec.ofFin (opX w) : Nibble) ++ (BitVec.ofFin (opY w) : Nibble)) (x₂ := 0xF#4 ++ 0x0#4 ++ 0x0#4)
    (y₁ := opN w) (y₂ := 0xF#4)
  have h2 := BitVec.and_append (x₁ := opT w ++ (BitVec.ofFin (opX w) : Nibble)) (x₂ := 0xF#4 ++ 0x0#4)
    (y₁ := (BitVec.ofFin (opY w) : Nibble)) (y₂ := 0x0#4)
  have h3 := BitVec.and_append (x₁ := opT w) (x₂ := 0xF#4) (y₁ := (BitVec.ofFin (opX w) : Nibble)) (y₂ := 0x0#4)
  rw [h2, h3, show opT w &&& 0xF#4 = opT w from BitVec.and_allOnes, BitVec.and_zero,
    BitVec.and_zero, show opN w &&& 0xF#4 = opN w from BitVec.and_allOnes] at h
  have e : w = opT w ++ (BitVec.ofFin (opX w) : Nibble) ++ (BitVec.ofFin (opY w) : Nibble) ++ opN w :=
    (wordXYN_fields w).symm
  conv_lhs => rw [e]
  exact h

theorem and_maskAll : w &&& 0xFFFF#16 = w := BitVec.and_allOnes

end Sys2Proof
end

