-- ==== Sys2Proof/Laws/State.lean ====
section
/-! SUPPORT. One lemma per field per named update of State: what the update leaves, true by rfl, so that no later proof
unfolds a record update. -/

namespace Sys2Proof.Machine

variable (s : State)

/-! ### State.setV -/

@[simp] theorem State.setV_v (x : RegIx) (b : Byte) : (s.setV x b).v = s.v.set x.val b x.isLt := rfl
@[simp] theorem State.setV_i (x : RegIx) (b : Byte) : (s.setV x b).i = s.i := rfl
@[simp] theorem State.setV_pc (x : RegIx) (b : Byte) : (s.setV x b).pc = s.pc := rfl
@[simp] theorem State.setV_stack (x : RegIx) (b : Byte) : (s.setV x b).stack = s.stack := rfl
@[simp] theorem State.setV_sp (x : RegIx) (b : Byte) : (s.setV x b).sp = s.sp := rfl
@[simp] theorem State.setV_dt (x : RegIx) (b : Byte) : (s.setV x b).dt = s.dt := rfl
@[simp] theorem State.setV_st (x : RegIx) (b : Byte) : (s.setV x b).st = s.st := rfl
@[simp] theorem State.setV_mem (x : RegIx) (b : Byte) : (s.setV x b).mem = s.mem := rfl
@[simp] theorem State.setV_fb (x : RegIx) (b : Byte) : (s.setV x b).fb = s.fb := rfl
@[simp] theorem State.setV_redraw (x : RegIx) (b : Byte) : (s.setV x b).redraw = s.redraw := rfl
@[simp] theorem State.setV_halted (x : RegIx) (b : Byte) : (s.setV x b).halted = s.halted := rfl
@[simp] theorem State.setV_fault (x : RegIx) (b : Byte) : (s.setV x b).fault = s.fault := rfl
@[simp] theorem State.setV_wait (x : RegIx) (b : Byte) : (s.setV x b).wait = s.wait := rfl
@[simp] theorem State.setV_anomalyCount (x : RegIx) (b : Byte) : (s.setV x b).anomalyCount = s.anomalyCount := rfl
@[simp] theorem State.setV_lastAnomaly (x : RegIx) (b : Byte) : (s.setV x b).lastAnomaly = s.lastAnomaly := rfl
@[simp] theorem State.setV_keys (x : RegIx) (b : Byte) : (s.setV x b).keys = s.keys := rfl
@[simp] theorem State.setV_draws (x : RegIx) (b : Byte) : (s.setV x b).draws = s.draws := rfl

/-! ### State.setRegs -/

@[simp] theorem State.setRegs_i (bs : List Byte) : (s.setRegs bs).i = s.i := rfl
@[simp] theorem State.setRegs_pc (bs : List Byte) : (s.setRegs bs).pc = s.pc := rfl
@[simp] theorem State.setRegs_stack (bs : List Byte) : (s.setRegs bs).stack = s.stack := rfl
@[simp] theorem State.setRegs_sp (bs : List Byte) : (s.setRegs bs).sp = s.sp := rfl
@[simp] theorem State.setRegs_dt (bs : List Byte) : (s.setRegs bs).dt = s.dt := rfl
@[simp] theorem State.setRegs_st (bs : List Byte) : (s.setRegs bs).st = s.st := rfl
@[simp] theorem State.setRegs_mem (bs : List Byte) : (s.setRegs bs).mem = s.mem := rfl
@[simp] theorem State.setRegs_fb (bs : List Byte) : (s.setRegs bs).fb = s.fb := rfl
@[simp] theorem State.setRegs_redraw (bs : List Byte) : (s.setRegs bs).redraw = s.redraw := rfl
@[simp] theorem State.setRegs_halted (bs : List Byte) : (s.setRegs bs).halted = s.halted := rfl
@[simp] theorem State.setRegs_fault (bs : List Byte) : (s.setRegs bs).fault = s.fault := rfl
@[simp] theorem State.setRegs_wait (bs : List Byte) : (s.setRegs bs).wait = s.wait := rfl
@[simp] theorem State.setRegs_anomalyCount (bs : List Byte) : (s.setRegs bs).anomalyCount = s.anomalyCount := rfl
@[simp] theorem State.setRegs_lastAnomaly (bs : List Byte) : (s.setRegs bs).lastAnomaly = s.lastAnomaly := rfl
@[simp] theorem State.setRegs_keys (bs : List Byte) : (s.setRegs bs).keys = s.keys := rfl
@[simp] theorem State.setRegs_draws (bs : List Byte) : (s.setRegs bs).draws = s.draws := rfl

/-! ### State.advance -/

@[simp] theorem State.advance_v : (s.advance).v = s.v := rfl
@[simp] theorem State.advance_i : (s.advance).i = s.i := rfl
@[simp] theorem State.advance_pc : (s.advance).pc = s.pc + 2 := rfl
@[simp] theorem State.advance_stack : (s.advance).stack = s.stack := rfl
@[simp] theorem State.advance_sp : (s.advance).sp = s.sp := rfl
@[simp] theorem State.advance_dt : (s.advance).dt = s.dt := rfl
@[simp] theorem State.advance_st : (s.advance).st = s.st := rfl
@[simp] theorem State.advance_mem : (s.advance).mem = s.mem := rfl
@[simp] theorem State.advance_fb : (s.advance).fb = s.fb := rfl
@[simp] theorem State.advance_redraw : (s.advance).redraw = s.redraw := rfl
@[simp] theorem State.advance_halted : (s.advance).halted = s.halted := rfl
@[simp] theorem State.advance_fault : (s.advance).fault = s.fault := rfl
@[simp] theorem State.advance_wait : (s.advance).wait = s.wait := rfl
@[simp] theorem State.advance_anomalyCount : (s.advance).anomalyCount = s.anomalyCount := rfl
@[simp] theorem State.advance_lastAnomaly : (s.advance).lastAnomaly = s.lastAnomaly := rfl
@[simp] theorem State.advance_keys : (s.advance).keys = s.keys := rfl
@[simp] theorem State.advance_draws : (s.advance).draws = s.draws := rfl

/-! ### State.skip -/

@[simp] theorem State.skip_v : (s.skip).v = s.v := rfl
@[simp] theorem State.skip_i : (s.skip).i = s.i := rfl
@[simp] theorem State.skip_pc : (s.skip).pc = s.pc + 2 := rfl
@[simp] theorem State.skip_stack : (s.skip).stack = s.stack := rfl
@[simp] theorem State.skip_sp : (s.skip).sp = s.sp := rfl
@[simp] theorem State.skip_dt : (s.skip).dt = s.dt := rfl
@[simp] theorem State.skip_st : (s.skip).st = s.st := rfl
@[simp] theorem State.skip_mem : (s.skip).mem = s.mem := rfl
@[simp] theorem State.skip_fb : (s.skip).fb = s.fb := rfl
@[simp] theorem State.skip_redraw : (s.skip).redraw = s.redraw := rfl
@[simp] theorem State.skip_halted : (s.skip).halted = s.halted := rfl
@[simp] theorem State.skip_fault : (s.skip).fault = s.fault := rfl
@[simp] theorem State.skip_wait : (s.skip).wait = s.wait := rfl
@[simp] theorem State.skip_anomalyCount : (s.skip).anomalyCount = s.anomalyCount := rfl
@[simp] theorem State.skip_lastAnomaly : (s.skip).lastAnomaly = s.lastAnomaly := rfl
@[simp] theorem State.skip_keys : (s.skip).keys = s.keys := rfl
@[simp] theorem State.skip_draws : (s.skip).draws = s.draws := rfl

/-! ### State.raise -/

@[simp] theorem State.raise_v (k : FaultKind) (op : Option Word) : (s.raise k op).v = s.v := rfl
@[simp] theorem State.raise_i (k : FaultKind) (op : Option Word) : (s.raise k op).i = s.i := rfl
@[simp] theorem State.raise_pc (k : FaultKind) (op : Option Word) : (s.raise k op).pc = s.pc := rfl
@[simp] theorem State.raise_stack (k : FaultKind) (op : Option Word) : (s.raise k op).stack = s.stack := rfl
@[simp] theorem State.raise_sp (k : FaultKind) (op : Option Word) : (s.raise k op).sp = s.sp := rfl
@[simp] theorem State.raise_dt (k : FaultKind) (op : Option Word) : (s.raise k op).dt = s.dt := rfl
@[simp] theorem State.raise_st (k : FaultKind) (op : Option Word) : (s.raise k op).st = s.st := rfl
@[simp] theorem State.raise_mem (k : FaultKind) (op : Option Word) : (s.raise k op).mem = s.mem := rfl
@[simp] theorem State.raise_fb (k : FaultKind) (op : Option Word) : (s.raise k op).fb = s.fb := rfl
@[simp] theorem State.raise_redraw (k : FaultKind) (op : Option Word) : (s.raise k op).redraw = s.redraw := rfl
@[simp] theorem State.raise_halted (k : FaultKind) (op : Option Word) : (s.raise k op).halted = true := rfl
@[simp] theorem State.raise_fault (k : FaultKind) (op : Option Word) : (s.raise k op).fault = some { kind := k, pc := s.pc, opcode := op, sp := s.sp } := rfl
@[simp] theorem State.raise_wait (k : FaultKind) (op : Option Word) : (s.raise k op).wait = s.wait := rfl
@[simp] theorem State.raise_anomalyCount (k : FaultKind) (op : Option Word) : (s.raise k op).anomalyCount = s.anomalyCount := rfl
@[simp] theorem State.raise_lastAnomaly (k : FaultKind) (op : Option Word) : (s.raise k op).lastAnomaly = s.lastAnomaly := rfl
@[simp] theorem State.raise_keys (k : FaultKind) (op : Option Word) : (s.raise k op).keys = s.keys := rfl
@[simp] theorem State.raise_draws (k : FaultKind) (op : Option Word) : (s.raise k op).draws = s.draws := rfl

/-! ### State.reportUnrecognized -/

@[simp] theorem State.reportUnrecognized_v (a w : Word) : (s.reportUnrecognized a w).v = s.v := rfl
@[simp] theorem State.reportUnrecognized_i (a w : Word) : (s.reportUnrecognized a w).i = s.i := rfl
@[simp] theorem State.reportUnrecognized_pc (a w : Word) : (s.reportUnrecognized a w).pc = s.pc := rfl
@[simp] theorem State.reportUnrecognized_stack (a w : Word) : (s.reportUnrecognized a w).stack = s.stack := rfl
@[simp] theorem State.reportUnrecognized_sp (a w : Word) : (s.reportUnrecognized a w).sp = s.sp := rfl
@[simp] theorem State.reportUnrecognized_dt (a w : Word) : (s.reportUnrecognized a w).dt = s.dt := rfl
@[simp] theorem State.reportUnrecognized_st (a w : Word) : (s.reportUnrecognized a w).st = s.st := rfl
@[simp] theorem State.reportUnrecognized_mem (a w : Word) : (s.reportUnrecognized a w).mem = s.mem := rfl
@[simp] theorem State.reportUnrecognized_fb (a w : Word) : (s.reportUnrecognized a w).fb = s.fb := rfl
@[simp] theorem State.reportUnrecognized_redraw (a w : Word) : (s.reportUnrecognized a w).redraw = s.redraw := rfl
@[simp] theorem State.reportUnrecognized_halted (a w : Word) : (s.reportUnrecognized a w).halted = s.halted := rfl
@[simp] theorem State.reportUnrecognized_fault (a w : Word) : (s.reportUnrecognized a w).fault = s.fault := rfl
@[simp] theorem State.reportUnrecognized_wait (a w : Word) : (s.reportUnrecognized a w).wait = s.wait := rfl
@[simp] theorem State.reportUnrecognized_anomalyCount (a w : Word) : (s.reportUnrecognized a w).anomalyCount = s.anomalyCount + 1 := rfl
@[simp] theorem State.reportUnrecognized_lastAnomaly (a w : Word) : (s.reportUnrecognized a w).lastAnomaly = some (a, w) := rfl
@[simp] theorem State.reportUnrecognized_keys (a w : Word) : (s.reportUnrecognized a w).keys = s.keys := rfl
@[simp] theorem State.reportUnrecognized_draws (a w : Word) : (s.reportUnrecognized a w).draws = s.draws := rfl

/-! ### State.setFlagThenV -/

@[simp] theorem State.setFlagThenV_i (x : RegIx) (c : Bool) (b : Byte) : (s.setFlagThenV x c b).i = s.i := rfl
@[simp] theorem State.setFlagThenV_pc (x : RegIx) (c : Bool) (b : Byte) : (s.setFlagThenV x c b).pc = s.pc := rfl
@[simp] theorem State.setFlagThenV_stack (x : RegIx) (c : Bool) (b : Byte) : (s.setFlagThenV x c b).stack = s.stack := rfl
@[simp] theorem State.setFlagThenV_sp (x : RegIx) (c : Bool) (b : Byte) : (s.setFlagThenV x c b).sp = s.sp := rfl
@[simp] theorem State.setFlagThenV_dt (x : RegIx) (c : Bool) (b : Byte) : (s.setFlagThenV x c b).dt = s.dt := rfl
@[simp] theorem State.setFlagThenV_st (x : RegIx) (c : Bool) (b : Byte) : (s.setFlagThenV x c b).st = s.st := rfl
@[simp] theorem State.setFlagThenV_mem (x : RegIx) (c : Bool) (b : Byte) : (s.setFlagThenV x c b).mem = s.mem := rfl
@[simp] theorem State.setFlagThenV_fb (x : RegIx) (c : Bool) (b : Byte) : (s.setFlagThenV x c b).fb = s.fb := rfl
@[simp] theorem State.setFlagThenV_redraw (x : RegIx) (c : Bool) (b : Byte) : (s.setFlagThenV x c b).redraw = s.redraw := rfl
@[simp] theorem State.setFlagThenV_halted (x : RegIx) (c : Bool) (b : Byte) : (s.setFlagThenV x c b).halted = s.halted := rfl
@[simp] theorem State.setFlagThenV_fault (x : RegIx) (c : Bool) (b : Byte) : (s.setFlagThenV x c b).fault = s.fault := rfl
@[simp] theorem State.setFlagThenV_wait (x : RegIx) (c : Bool) (b : Byte) : (s.setFlagThenV x c b).wait = s.wait := rfl
@[simp] theorem State.setFlagThenV_anomalyCount (x : RegIx) (c : Bool) (b : Byte) : (s.setFlagThenV x c b).anomalyCount = s.anomalyCount := rfl
@[simp] theorem State.setFlagThenV_lastAnomaly (x : RegIx) (c : Bool) (b : Byte) : (s.setFlagThenV x c b).lastAnomaly = s.lastAnomaly := rfl
@[simp] theorem State.setFlagThenV_keys (x : RegIx) (c : Bool) (b : Byte) : (s.setFlagThenV x c b).keys = s.keys := rfl
@[simp] theorem State.setFlagThenV_draws (x : RegIx) (c : Bool) (b : Byte) : (s.setFlagThenV x c b).draws = s.draws := rfl

/-! ### State.takeKey -/

@[simp] theorem State.takeKey_i (x k : Fin 16) : (s.takeKey x k).i = s.i := rfl
@[simp] theorem State.takeKey_pc (x k : Fin 16) : (s.takeKey x k).pc = s.pc := rfl
@[simp] theorem State.takeKey_stack (x k : Fin 16) : (s.takeKey x k).stack = s.stack := rfl
@[simp] theorem State.takeKey_sp (x k : Fin 16) : (s.takeKey x k).sp = s.sp := rfl
@[simp] theorem State.takeKey_dt (x k : Fin 16) : (s.takeKey x k).dt = s.dt := rfl
@[simp] theorem State.takeKey_st (x k : Fin 16) : (s.takeKey x k).st = s.st := rfl
@[simp] theorem State.takeKey_mem (x k : Fin 16) : (s.takeKey x k).mem = s.mem := rfl
@[simp] theorem State.takeKey_fb (x k : Fin 16) : (s.takeKey x k).fb = s.fb := rfl
@[simp] theorem State.takeKey_redraw (x k : Fin 16) : (s.takeKey x k).redraw = s.redraw := rfl
@[simp] theorem State.takeKey_halted (x k : Fin 16) : (s.takeKey x k).halted = s.halted := rfl
@[simp] theorem State.takeKey_fault (x k : Fin 16) : (s.takeKey x k).fault = s.fault := rfl
@[simp] theorem State.takeKey_wait (x k : Fin 16) : (s.takeKey x k).wait = none := rfl
@[simp] theorem State.takeKey_anomalyCount (x k : Fin 16) : (s.takeKey x k).anomalyCount = s.anomalyCount := rfl
@[simp] theorem State.takeKey_lastAnomaly (x k : Fin 16) : (s.takeKey x k).lastAnomaly = s.lastAnomaly := rfl
@[simp] theorem State.takeKey_keys (x k : Fin 16) : (s.takeKey x k).keys = s.keys := rfl
@[simp] theorem State.takeKey_draws (x k : Fin 16) : (s.takeKey x k).draws = s.draws := rfl

/-! ### State.tick -/

@[simp] theorem State.tick_v : (s.tick).v = s.v := rfl
@[simp] theorem State.tick_i : (s.tick).i = s.i := rfl
@[simp] theorem State.tick_pc : (s.tick).pc = s.pc := rfl
@[simp] theorem State.tick_stack : (s.tick).stack = s.stack := rfl
@[simp] theorem State.tick_sp : (s.tick).sp = s.sp := rfl
@[simp] theorem State.tick_dt : (s.tick).dt = tickTimer s.dt := rfl
@[simp] theorem State.tick_st : (s.tick).st = tickTimer s.st := rfl
@[simp] theorem State.tick_mem : (s.tick).mem = s.mem := rfl
@[simp] theorem State.tick_fb : (s.tick).fb = s.fb := rfl
@[simp] theorem State.tick_redraw : (s.tick).redraw = s.redraw := rfl
@[simp] theorem State.tick_halted : (s.tick).halted = s.halted := rfl
@[simp] theorem State.tick_fault : (s.tick).fault = s.fault := rfl
@[simp] theorem State.tick_wait : (s.tick).wait = s.wait := rfl
@[simp] theorem State.tick_anomalyCount : (s.tick).anomalyCount = s.anomalyCount := rfl
@[simp] theorem State.tick_lastAnomaly : (s.tick).lastAnomaly = s.lastAnomaly := rfl
@[simp] theorem State.tick_keys : (s.tick).keys = s.keys := rfl
@[simp] theorem State.tick_draws : (s.tick).draws = s.draws := rfl

/-! ### Registers -/

@[simp] theorem State.getV_setV (x r : RegIx) (b : Byte) : (s.setV x b).getV r = if r = x then b else s.getV r := by
  by_cases h : r = x
  · subst h; simp [State.setV, State.getV, Vector.get_eq_getElem]
  · have : x.val ≠ r.val := fun e => h (Fin.ext e.symm)
    simp [State.setV, State.getV, Vector.get_eq_getElem, h, Vector.getElem_set_ne, this]

@[simp] theorem State.getV_setRegs (bs : List Byte) (r : RegIx) :
    (s.setRegs bs).getV r = bs.getD r.val (s.getV r) := by
  simp [State.setRegs, State.getV, Vector.get_eq_getElem]

@[simp] theorem State.getV_setFlagThenV (x r : RegIx) (c : Bool) (b : Byte) :
    (s.setFlagThenV x c b).getV r = if r = x then b else if r = vf then flagByte c else s.getV r := by
  simp [State.setFlagThenV]

@[simp] theorem State.getV_takeKey (x k r : Fin 16) :
    (s.takeKey x k).getV r = if r = x then BitVec.ofNat 8 k.val else s.getV r := by
  rw [← State.getV_setV]; rfl

/-- A state whose registers are `s`'s reads its registers as `s` does. -/
theorem getV_congr {s t : State} (h : t.v = s.v) (r : RegIx) : t.getV r = s.getV r := by
  simp [State.getV, h]

/-- Conditional skip: only PC, and by 2 or not at all (R87). -/
theorem State.skipIf_eq (c : Bool) : s.skipIf c = { s with pc := if c then s.pc + 2 else s.pc } := by
  cases c <;> rfl

end Sys2Proof.Machine
end

