-- ==== Sys2Proof/Laws/Memory.lean ====
section
/-! SUPPORT. The laws of memory: a read after a write, and that every memory operation keeps the canonical form. -/

namespace Sys2Proof.Machine

/-! ### Reading after writing -/

theorem Memory.byteAt_insertCell (m : Memory) (a : Nat) (b : Byte) (c : Nat) :
    (m.insertCell a b).byteAt c = if a = c then b else m.byteAt c := by
  induction m with
  | nil => simp [Memory.insertCell, Memory.byteAt]
  | cons p rest ih =>
    obtain ⟨k, d⟩ := p
    simp only [Memory.insertCell]
    split
    · simp [Memory.byteAt]
    · split
      · subst_vars; simp only [Memory.byteAt]; split <;> rfl
      · simp only [Memory.byteAt, ih]; split
        · subst_vars; simp_all
        · rfl

theorem Memory.byteAt_eraseCell (m : Memory) (a c : Nat) :
    (m.eraseCell a).byteAt c = if a = c then resetByte a else m.byteAt c := by
  induction m with
  | nil => by_cases h : a = c <;> simp [Memory.eraseCell, Memory.byteAt, h]
  | cons p rest ih =>
    obtain ⟨k, d⟩ := p
    simp only [Memory.eraseCell] at ih
    by_cases hk : k = a
    · subst hk
      simp only [Memory.eraseCell, List.filter, bne_self_eq_false, ih, Memory.byteAt]
      split <;> rfl
    · have : (k != a) = true := by simpa using hk
      simp only [Memory.eraseCell, List.filter, this, Memory.byteAt, ih]
      split
      · subst_vars; rw [if_neg (fun e => hk e.symm)]
      · rfl

/-- A byte reads back as it was written, and every other byte as before (R48). -/
theorem Memory.byteAt_put (m : Memory) (a : Nat) (b : Byte) (c : Nat) :
    (m.put a b).byteAt c = if a = c ∧ a < 4096 then b else m.byteAt c := by
  unfold Memory.put
  split
  · rw [if_neg (by omega)]
  · split
    · rw [Memory.byteAt_eraseCell]
      by_cases h : a = c
      · rw [if_pos h, if_pos ⟨h, by omega⟩]; simp_all
      · rw [if_neg h, if_neg (fun e => h e.1)]
    · rw [Memory.byteAt_insertCell]
      by_cases h : a = c
      · rw [if_pos h, if_pos ⟨h, by omega⟩]
      · rw [if_neg h, if_neg (fun e => h e.1)]

/-- What is outside the written range reads as before. -/
theorem Memory.byteAt_putBytes_outside (m : Memory) (a : Nat) (bs : List Byte) (c : Nat)
    (h : c < a ∨ a + bs.length ≤ c) : (m.putBytes a bs).byteAt c = m.byteAt c := by
  induction bs generalizing m a with
  | nil => rfl
  | cons b bs ih =>
    simp only [List.length_cons] at h
    rw [Memory.putBytes, ih _ _ (by omega), Memory.byteAt_put, if_neg (by omega)]

/-- The k-th written byte reads back. -/
theorem Memory.byteAt_putBytes_inside (m : Memory) (a : Nat) (bs : List Byte) (k : Nat) (hk : k < bs.length)
    (h : a + k < 4096) : (m.putBytes a bs).byteAt (a + k) = bs[k] := by
  induction bs generalizing m a k with
  | nil => exact absurd hk (by simp)
  | cons b bs ih =>
    rw [Memory.putBytes]
    cases k with
    | zero =>
      rw [Memory.byteAt_putBytes_outside _ _ _ _ (by omega), Memory.byteAt_put, if_pos ⟨rfl, by omega⟩]; rfl
    | succ k =>
      have := ih (m.put a b) (a + 1) k (by simpa using hk) (by omega)
      rw [show a + (k + 1) = a + 1 + k by omega, this]; rfl

/-- Two memories that read alike read alike after the same bytes are put into both. -/
theorem Memory.byteAt_putBytes_congr {m m' : Memory} (h : ∀ c, m'.byteAt c = m.byteAt c) (a : Nat) (bs : List Byte)
    (c : Nat) : (m'.putBytes a bs).byteAt c = (m.putBytes a bs).byteAt c := by
  induction bs generalizing m m' a with
  | nil => exact h c
  | cons b bs ih => exact ih (fun c => by rw [Memory.byteAt_put, Memory.byteAt_put, h]) (a + 1)

/-! ### The canonical form -/

/-- The canonical form of a cell before the rest. -/
theorem Memory.wf_cons (k : Nat) (d : Byte) (rest : Memory) :
    Memory.wf ((k, d) :: rest) = true ↔
      k < 4096 ∧ d ≠ resetByte k ∧ (∀ c ∈ rest, k < c.1) ∧ Memory.wf rest = true := by
  simp [Memory.wf, and_assoc]

theorem Memory.mem_insertCell {m : Memory} {a : Nat} {b : Byte} {c : Host.Cell} (h : c ∈ m.insertCell a b) :
    c = (a, b) ∨ c ∈ m := by
  induction m with
  | nil => simpa [Memory.insertCell] using h
  | cons p rest ih =>
    obtain ⟨k, d⟩ := p
    simp only [Memory.insertCell] at h
    split at h
    · simpa using h
    · split at h
      · rcases List.mem_cons.1 h with h | h
        · exact .inl h
        · exact .inr (List.mem_cons_of_mem _ h)
      · rcases List.mem_cons.1 h with h | h
        · exact .inr (by simp [h])
        · exact (ih h).imp id (List.mem_cons_of_mem _)

theorem Memory.wf_insertCell {m : Memory} (hm : m.wf = true) {a : Nat} {b : Byte} (ha : a < 4096)
    (hb : b ≠ resetByte a) : (m.insertCell a b).wf = true := by
  induction m with
  | nil => simpa [Memory.insertCell, Memory.wf] using ⟨ha, hb⟩
  | cons p rest ih =>
    obtain ⟨k, d⟩ := p
    obtain ⟨hk, hd, hlt, hr⟩ := (Memory.wf_cons k d rest).1 hm
    simp only [Memory.insertCell]
    split
    · next hak =>
      refine (Memory.wf_cons _ _ _).2 ⟨ha, hb, fun c hc => ?_, hm⟩
      rcases List.mem_cons.1 hc with rfl | hc
      · exact hak
      · exact Nat.lt_trans hak (hlt c hc)
    · split
      · next hak => subst hak; exact (Memory.wf_cons _ _ _).2 ⟨ha, hb, hlt, hr⟩
      · next h1 h2 =>
        refine (Memory.wf_cons _ _ _).2 ⟨hk, hd, fun c hc => ?_, ih hr⟩
        rcases Memory.mem_insertCell hc with rfl | hc
        · show k < a; omega
        · exact hlt c hc

theorem Memory.wf_eraseCell {m : Memory} (hm : m.wf = true) (a : Nat) : (m.eraseCell a).wf = true := by
  induction m with
  | nil => rfl
  | cons p rest ih =>
    obtain ⟨k, d⟩ := p
    obtain ⟨hk, hd, hlt, hr⟩ := (Memory.wf_cons k d rest).1 hm
    simp only [Memory.eraseCell, List.filter]
    split
    · exact (Memory.wf_cons _ _ _).2 ⟨hk, hd, fun c hc => hlt c (List.mem_of_mem_filter hc), ih hr⟩
    · exact ih hr

/-- Writing a byte keeps the canonical form. -/
theorem Memory.wf_put {m : Memory} (hm : m.wf = true) (a : Nat) (b : Byte) : (m.put a b).wf = true := by
  unfold Memory.put
  split
  · exact hm
  · split
    · exact Memory.wf_eraseCell hm a
    · exact Memory.wf_insertCell hm (by omega) (by assumption)

/-- Writing bytes keeps the canonical form. -/
theorem Memory.wf_putBytes {m : Memory} (hm : m.wf = true) (a : Nat) (bs : List Byte) :
    (m.putBytes a bs).wf = true := by
  induction bs generalizing m a with
  | nil => exact hm
  | cons b bs ih => exact ih (Memory.wf_put hm a b) (a + 1)

/-! ### Checked transfers -/

theorem inRange_iff (a n : Nat) : inRange a n = true ↔ n = 0 ∨ a + (n - 1) ≤ 0xFFF := by
  simp [inRange]

/-- A checked store is the unchecked one where the range passes. -/
theorem storeBytes_some {m : Memory} {a : Nat} {bs : List Byte} (h : bs.length = 0 ∨ a + (bs.length - 1) ≤ 0xFFF) :
    storeBytes m a bs = some (m.putBytes a bs) := by
  simp [storeBytes, (inRange_iff _ _).2 h]

/-- A checked store writes nothing where the range fails. -/
theorem storeBytes_none {m : Memory} {a : Nat} {bs : List Byte} (h : bs.length ≠ 0) (h' : 0xFFF < a + (bs.length - 1)) :
    storeBytes m a bs = none := by
  have : inRange a bs.length = false := by
    rw [Bool.eq_false_iff]; exact fun e => by rcases (inRange_iff _ _).1 e with e | e <;> omega
  simp [storeBytes, this]

/-- What a checked store can answer: the memory after it is the bytes put, and keeps the canonical form. -/
theorem storeBytes_eq_some {m m' : Memory} {a : Nat} {bs : List Byte} (h : storeBytes m a bs = some m') :
    m' = m.putBytes a bs := by
  unfold storeBytes at h; split at h <;> simp_all

theorem loadBytes_some {m : Memory} {a n : Nat} (h : n = 0 ∨ a + (n - 1) ≤ 0xFFF) :
    loadBytes m a n = some ((List.range n).map fun k => m.byteAt (a + k)) := by
  simp [loadBytes, (inRange_iff _ _).2 h]

theorem loadBytes_none {m : Memory} {a n : Nat} (h : n ≠ 0) (h' : 0xFFF < a + (n - 1)) : loadBytes m a n = none := by
  have : inRange a n = false := by
    rw [Bool.eq_false_iff]; exact fun e => by rcases (inRange_iff _ _).1 e with e | e <;> omega
  simp [loadBytes, this]

/-- Two memories that read alike load alike. -/
theorem loadBytes_congr {m m' : Memory} (h : ∀ a, m'.byteAt a = m.byteAt a) (a n : Nat) :
    loadBytes m' a n = loadBytes m a n := by
  simp [loadBytes, h]

end Sys2Proof.Machine
end

