-- ==== Sys2Proof/Laws/Ops.lean ====
section
/-! SUPPORT. What each shared operation can do, said once: stack, checks, fetch, key poll, exec and step. -/

namespace Sys2Proof.Machine

/-! ### Frames -/

theorem Unchanged.refl (ps : List Part) (s : State) : Unchanged ps s s := by
  constructor <;> simp

theorem Unchanged.trans {ps : List Part} {s t u : State} (h : Unchanged ps s t) (k : Unchanged ps t u) :
    Unchanged ps s u where
  v hp := (k.v hp).trans (h.v hp)
  i hp := (k.i hp).trans (h.i hp)
  pc hp := (k.pc hp).trans (h.pc hp)
  stack hp := (k.stack hp).trans (h.stack hp)
  sp hp := (k.sp hp).trans (h.sp hp)
  dt hp := (k.dt hp).trans (h.dt hp)
  st hp := (k.st hp).trans (h.st hp)
  mem hp a := (k.mem hp a).trans (h.mem hp a)
  fb hp := (k.fb hp).trans (h.fb hp)
  redraw hp := (k.redraw hp).trans (h.redraw hp)
  halted hp := (k.halted hp).trans (h.halted hp)
  fault hp := (k.fault hp).trans (h.fault hp)
  wait hp := (k.wait hp).trans (h.wait hp)
  anomaly hp := ⟨(k.anomaly hp).1.trans (h.anomaly hp).1, (k.anomaly hp).2.trans (h.anomaly hp).2⟩
  keys hp := (k.keys hp).trans (h.keys hp)
  draws hp := (k.draws hp).trans (h.draws hp)

/-- Raising a fault is taking it. -/
theorem State.raise_taken (s : State) (k : FaultKind) (op : Option Word) : FaultTaken k op s (s.raise k op) where
  halted := rfl
  record := rfl
  rest := by constructor <;> simp

/-! ### Stack (R15) -/

theorem State.push_some {s : State} (w : Word) (h : s.sp.val < 16) :
    s.push w = some { s with stack := s.stack.set s.sp.val w h, sp := ⟨s.sp.val + 1, by omega⟩ } := by
  simp [State.push, h]

theorem State.push_none {s : State} (w : Word) (h : s.sp.val = 16) : s.push w = none := by
  simp [State.push, h]

theorem State.pop_some {s : State} {k : Fin 16} (h : s.sp.val = k.val + 1) :
    s.pop = some (s.stack.get k, { s with sp := ⟨k.val, by omega⟩ }) := by
  have h0 : 0 < s.sp.val := by omega
  have hk : s.sp.val - 1 = k.val := by omega
  simp [State.pop, h0, hk]

theorem State.pop_none {s : State} (h : s.sp.val = 0) : s.pop = none := by
  simp [State.pop, h]

/-! ### The one check of an instruction (R180) -/

@[simp] theorem State.orRaise_some (s : State) (k : FaultKind) (i : Instr) (t : State) :
    s.orRaise k i (some t) = .next t := rfl

@[simp] theorem State.orRaise_none (s : State) (k : FaultKind) (i : Instr) :
    s.orRaise k i none = .next (s.raise k (some (encode i))) := rfl

/-- A checked effect answers next: the effect, or the fault taken. -/
theorem State.orRaise_next {s t : State} {k : FaultKind} {i : Instr} {e : Option State} (h : s.orRaise k i e = .next t) :
    e = some t ∨ (e = none ∧ t = s.raise k (some (encode i))) := by
  cases e with
  | none => exact .inr ⟨rfl, by simpa using h.symm⟩
  | some u => exact .inl (by simpa using h)

/-! ### Fetch (R44) -/

theorem State.fetch_some {s : State} (h : s.pc.toNat ≤ 0xFFE) :
    s.fetch = some (wordOfBytes (s.mem.byteAt s.pc.toNat) (s.mem.byteAt (s.pc.toNat + 1))) := by
  simp [State.fetch, h]

theorem State.fetch_none {s : State} (h : 0xFFE < s.pc.toNat) : s.fetch = none := by
  simp [State.fetch, Nat.not_le.2 h]

/-- The advance after a fetch never wraps (R83). -/
theorem State.advance_toNat {s : State} (h : s.pc.toNat ≤ 0xFFE) : s.advance.pc.toNat = s.pc.toNat + 2 := by
  simp [State.advance, BitVec.toNat_add]; omega

/-! ### Framebuffer (R19) -/

theorem cellIndex_inj {x y x' y' : Nat} (hx : x < 64) (hx' : x' < 64) :
    cellIndex x y = cellIndex x' y' ↔ x = x' ∧ y = y' := by
  simp only [cellIndex]; omega

/-- Toggling one cell flips it and leaves the others. -/
theorem fbCell_fbToggle (fb : Framebuffer) {px py x y : Nat} (hpx : px < 64) (hx : x < 64) (hy : y < 32) :
    fbCell (fbToggle fb px py) x y = if x = px ∧ y = py then !fbCell fb x y else fbCell fb x y := by
  have hi : cellIndex x y < 2048 := by simp only [cellIndex]; omega
  by_cases h : x = px ∧ y = py
  · obtain ⟨rfl, rfl⟩ := h
    simp [fbCell, fbToggle, hi]
  · have : cellIndex px py ≠ cellIndex x y := fun e => h (by
      have := (cellIndex_inj hpx hx).1 e; omega)
    simp [fbCell, fbToggle, BitVec.getLsbD_twoPow, h, this]

@[simp] theorem fbCell_fbClear (x y : Nat) : fbCell fbClear x y = false := by simp [fbCell, fbClear]

/-! ### Keys (R164, R167) -/

theorem keyOperand_some {s : State} {x : RegIx} {k : Fin 16} (h : (s.getV x).toNat = k.val) :
    keyOperand s x = some k := by
  simp [keyOperand, h]

theorem keyOperand_none {s : State} {x : RegIx} (h : 15 < (s.getV x).toNat) : keyOperand s x = none := by
  have : ¬ (s.getV x).toNat < 16 := by omega
  simp [keyOperand, this]

theorem State.mem_pressed (s : State) (k : Fin 16) : k ∈ s.pressed ↔ s.keyDown k = true := by
  simp [State.pressed]

/-- The free choice is one of the pressed keys, whatever the number. -/
theorem pickKey_mem (k : Fin 16) (ks : List (Fin 16)) (c : Nat) : pickKey k ks c ∈ k :: ks := by
  have h : c % (ks.length + 1) < (k :: ks).length := by
    simpa using Nat.mod_lt c (Nat.succ_pos ks.length)
  simp only [pickKey, List.getD_eq_getElem _ _ h]
  exact List.getElem_mem h

/-- What the key poll can do: nothing while no key is down, else the wait ends with a key that is down, and at most one
free number is drawn. -/
theorem keyPoll_cases (x : RegIx) (s : State) :
    ((∀ k, s.keyDown k = false) ∧ keyPoll x s = s) ∨
      ∃ k d, s.keyDown k = true ∧ keyPoll x s = { s.takeKey x k with draws := d } := by
  unfold keyPoll
  split
  · next h =>
    refine .inl ⟨fun k => ?_, rfl⟩
    rw [Bool.eq_false_iff]
    exact fun hk => by simpa [h] using (s.mem_pressed k).2 hk
  · next k h => exact .inr ⟨k, s.draws, (s.mem_pressed k).1 (by simp [h]), rfl⟩
  · next k ks _ h =>
    exact .inr ⟨_, _, (s.mem_pressed _).1 (h ▸ pickKey_mem k ks _), rfl⟩

/-! ### exec and step -/

/-- No meaning faults the model or refuses: the fatal faults of R171 are next states. -/
theorem exec_next (i : Instr) (s : State) : ∃ t, exec i s = .next t := by
  have h : ∀ k j e, ∃ t, s.orRaise k j e = .next t := fun k j e => by cases e <;> exact ⟨_, rfl⟩
  cases i <;> first | exact ⟨_, rfl⟩ | exact h _ _ _

/-- What a step can do (R80), one case per line of the pseudocode. -/
theorem step_cases {s t : State} (h : step s = .next t) :
    (s.halted = true ∧ t = s) ∨
    (s.halted = false ∧ ∃ x, s.wait = some x ∧ t = keyPoll x s) ∨
    (s.halted = false ∧ s.wait = none ∧ 0xFFE < s.pc.toNat ∧ t = s.raise .programCounterOutOfBounds none) ∨
    (s.halted = false ∧ s.wait = none ∧ s.pc.toNat ≤ 0xFFE ∧ ∃ op, s.fetch = some op ∧
      ((∃ i, decodeWord op = .ok i ∧ exec i s.advance = .next t) ∨
       (∃ e, decodeWord op = .error e ∧ t = s.advance.reportUnrecognized s.pc op))) := by
  unfold step at h
  split at h
  · next hh => exact .inl ⟨hh, by simpa using h.symm⟩
  · next hh =>
    have hh : s.halted = false := by simpa using hh
    split at h
    · next x hx => exact .inr (.inl ⟨hh, x, hx, by simpa using h.symm⟩)
    · next hw =>
      refine .inr (.inr ?_)
      by_cases hpc : s.pc.toNat ≤ 0xFFE
      · refine .inr ⟨hh, hw, hpc, _, State.fetch_some hpc, ?_⟩
        rw [State.fetch_some hpc] at h
        simp only at h
        split at h
        · next i hi => exact .inl ⟨i, hi, h⟩
        · next e he => exact .inr ⟨e, he, by simpa using h.symm⟩
      · have hpc : 0xFFE < s.pc.toNat := by omega
        rw [State.fetch_none hpc] at h
        exact .inl ⟨hh, hw, hpc, by simpa using h.symm⟩

end Sys2Proof.Machine
end

