-- ==== Sys2Proof/Laws/Display.lean ====
section
/-! SUPPORT. What drawing a sprite does to each cell and to the collision flag (R151). -/

namespace Sys2Proof.Machine

/-- The first n pixels of a row, the fold `drawRow` runs for n = 8. -/
def drawCols (b : Byte) (ox py n : Nat) (acc : Framebuffer × Bool) : Framebuffer × Bool :=
  (List.range n).foldl (fun acc col => drawPixel (b.getLsbD (7 - col)) ((ox + col) % 64) py acc) acc

/-- Some of the first n pixels of the row is set and lies at column x. -/
def ColCovers (b : Byte) (ox n x : Nat) : Prop := ∃ col, col < n ∧ b.getLsbD (7 - col) = true ∧ x = (ox + col) % 64

theorem drawCols_succ (b : Byte) (ox py n : Nat) (acc : Framebuffer × Bool) :
    drawCols b ox py (n + 1) acc = drawPixel (b.getLsbD (7 - n)) ((ox + n) % 64) py (drawCols b ox py n acc) := by
  simp [drawCols, List.range_succ]

theorem colCovers_succ (b : Byte) (ox n x : Nat) :
    ColCovers b ox (n + 1) x ↔ ColCovers b ox n x ∨ (b.getLsbD (7 - n) = true ∧ x = (ox + n) % 64) := by
  constructor
  · rintro ⟨col, hc, hb, hx⟩
    rcases Nat.lt_succ_iff_lt_or_eq.1 hc with h | rfl
    · exact .inl ⟨col, h, hb, hx⟩
    · exact .inr ⟨hb, hx⟩
  · rintro (⟨col, hc, hb, hx⟩ | ⟨hb, hx⟩)
    · exact ⟨col, by omega, hb, hx⟩
    · exact ⟨n, by omega, hb, hx⟩

/-- The cells and the collision flag after the first n pixels: each set pixel flips its cell once, since n columns
below 64 are distinct. -/
theorem drawCols_spec (b : Byte) (ox py n : Nat) (hn : n ≤ 64) (hpy : py < 32) (acc : Framebuffer × Bool) :
    (∀ x y, x < 64 → y < 32 →
      (y = py ∧ ColCovers b ox n x → fbCell (drawCols b ox py n acc).1 x y = !fbCell acc.1 x y) ∧
      (¬ (y = py ∧ ColCovers b ox n x) → fbCell (drawCols b ox py n acc).1 x y = fbCell acc.1 x y)) ∧
    ((drawCols b ox py n acc).2 = true ↔
      acc.2 = true ∨ ∃ x, x < 64 ∧ ColCovers b ox n x ∧ fbCell acc.1 x py = true) := by
  induction n with
  | zero => simp [drawCols, ColCovers]
  | succ n ih =>
    obtain ⟨ihc, ihf⟩ := ih (by omega)
    have hfresh : ¬ ColCovers b ox n ((ox + n) % 64) := fun ⟨col, hc, _, hx⟩ => by omega
    have hlt : (ox + n) % 64 < 64 := Nat.mod_lt _ (by omega)
    have hsame : fbCell (drawCols b ox py n acc).1 ((ox + n) % 64) py = fbCell acc.1 ((ox + n) % 64) py :=
      (ihc _ _ hlt hpy).2 (fun h => hfresh h.2)
    rw [drawCols_succ]
    cases hb : b.getLsbD (7 - n) with
    | false =>
      have hcov : ∀ x, ColCovers b ox (n + 1) x ↔ ColCovers b ox n x := fun x => by
        rw [colCovers_succ, hb]; simp
      simp only [drawPixel, hcov]
      exact ⟨ihc, ihf⟩
    | true =>
      have hcov : ∀ x, ColCovers b ox (n + 1) x ↔ ColCovers b ox n x ∨ x = (ox + n) % 64 := fun x => by
        rw [colCovers_succ, hb]; simp
      simp only [drawPixel, hcov, if_true]
      constructor
      · intro x y hx hy
        rw [fbCell_fbToggle _ hlt hx hy]
        by_cases hxy : x = (ox + n) % 64 ∧ y = py
        · obtain ⟨rfl, rfl⟩ := hxy
          simp [hsame]
        · rw [if_neg hxy]
          constructor
          · rintro ⟨hy', hc | hc⟩
            · exact (ihc x y hx hy).1 ⟨hy', hc⟩
            · exact absurd ⟨hc, hy'⟩ hxy
          · exact fun h => (ihc x y hx hy).2 (fun h' => h ⟨h'.1, .inl h'.2⟩)
      · rw [Bool.or_eq_true, ihf, hsame]
        constructor
        · rintro ((h | ⟨x, hx, hc, hl⟩) | h)
          · exact .inl h
          · exact .inr ⟨x, hx, .inl hc, hl⟩
          · exact .inr ⟨_, hlt, .inr rfl, h⟩
        · rintro (h | ⟨x, hx, hc | rfl, hl⟩)
          · exact .inl (.inl h)
          · exact .inl (.inr ⟨x, hx, hc, hl⟩)
          · exact .inr hl

/-- Some row of the sprite from `row` on has a set bit over cell (x, y). -/
def RowsCover (bs : List Byte) (ox oy row x y : Nat) : Prop :=
  ∃ k, k < bs.length ∧ y = (oy + row + k) % 32 ∧ ColCovers (bs.getD k 0) ox 8 x

theorem rowsCover_cons (b : Byte) (bs : List Byte) (ox oy row x y : Nat) :
    RowsCover (b :: bs) ox oy row x y ↔
      (y = (oy + row) % 32 ∧ ColCovers b ox 8 x) ∨ RowsCover bs ox oy (row + 1) x y := by
  constructor
  · rintro ⟨k, hk, hy, hc⟩
    cases k with
    | zero => exact .inl ⟨hy, by simpa using hc⟩
    | succ k => exact .inr ⟨k, by simpa using hk, by rw [hy]; congr 1; omega, by simpa using hc⟩
  · rintro (⟨hy, hc⟩ | ⟨k, hk, hy, hc⟩)
    · exact ⟨0, by simp, hy, by simpa using hc⟩
    · exact ⟨k + 1, by simpa using hk, by rw [hy]; congr 1; omega, by simpa using hc⟩

/-- The cells and the collision flag after a whole sprite of at most 32 rows: every cell under a set bit is flipped
once, every other cell is unchanged, and the flag says whether some flipped cell was set before. -/
theorem drawRows_spec (bs : List Byte) (ox oy row : Nat) (hlen : bs.length ≤ 32) (acc : Framebuffer × Bool) :
    (∀ x y, x < 64 → y < 32 →
      (RowsCover bs ox oy row x y → fbCell (drawRows bs ox oy row acc).1 x y = !fbCell acc.1 x y) ∧
      (¬ RowsCover bs ox oy row x y → fbCell (drawRows bs ox oy row acc).1 x y = fbCell acc.1 x y)) ∧
    ((drawRows bs ox oy row acc).2 = true ↔
      acc.2 = true ∨ ∃ x y, x < 64 ∧ y < 32 ∧ RowsCover bs ox oy row x y ∧ fbCell acc.1 x y = true) := by
  induction bs generalizing row acc with
  | nil => simp [drawRows, RowsCover]
  | cons b bs ih =>
    have hlen : bs.length + 1 ≤ 32 := by simpa using hlen
    have hpy : (oy + row) % 32 < 32 := Nat.mod_lt _ (by omega)
    obtain ⟨hc, hf⟩ := drawCols_spec b ox ((oy + row) % 32) 8 (by omega) hpy acc
    obtain ⟨ihc, ihf⟩ := ih (row + 1) (by omega) (drawCols b ox ((oy + row) % 32) 8 acc)
    have hfresh : ∀ x y, RowsCover bs ox oy (row + 1) x y → y ≠ (oy + row) % 32 := fun x y ⟨k, hk, hy, _⟩ => by omega
    rw [drawRows, show drawRow b ox ((oy + row) % 32) acc = drawCols b ox ((oy + row) % 32) 8 acc from rfl]
    constructor
    · intro x y hx hy
      rw [rowsCover_cons]
      constructor
      · rintro (h | h)
        · rw [(ihc x y hx hy).2 (fun h' => hfresh x y h' h.1), (hc x y hx hy).1 h]
        · rw [(ihc x y hx hy).1 h, (hc x y hx hy).2 (fun h' => hfresh x y h h'.1)]
      · intro h
        rw [(ihc x y hx hy).2 (fun h' => h (.inr h')), (hc x y hx hy).2 (fun h' => h (.inl h'))]
    · rw [ihf, hf]
      constructor
      · rintro ((h | ⟨x, hx, hcv, hl⟩) | ⟨x, y, hx, hy, hcv, hl⟩)
        · exact .inl h
        · exact .inr ⟨x, _, hx, hpy, (rowsCover_cons ..).2 (.inl ⟨rfl, hcv⟩), hl⟩
        · rw [(hc x y hx hy).2 (fun h' => hfresh x y hcv h'.1)] at hl
          exact .inr ⟨x, y, hx, hy, (rowsCover_cons ..).2 (.inr hcv), hl⟩
      · rintro (h | ⟨x, y, hx, hy, hcv, hl⟩)
        · exact .inl (.inl h)
        · rcases (rowsCover_cons ..).1 hcv with ⟨hpy', hcol⟩ | hrest
          · subst hpy'; exact .inl (.inr ⟨x, hx, hcol, hl⟩)
          · refine .inr ⟨x, y, hx, hy, hrest, ?_⟩
            rwa [(hc x y hx hy).2 (fun h' => hfresh x y hrest h'.1)]

/-- The rows the machine reads cover what the sprite in memory covers (R151). -/
theorem rowsCover_iff_spriteCovers (s : State) (x y : RegIx) (n px py : Nat) :
    RowsCover ((List.range n).map fun k => s.mem.byteAt (effAddr s 0 + k)) (spriteOrigin s x y).1 (spriteOrigin s x y).2
      0 px py ↔ SpriteCovers s x y n px py := by
  constructor
  · rintro ⟨row, hr, hy, col, hc, hb, hx⟩
    have hr : row < n := by simpa using hr
    refine ⟨row, hr, col, hc, ?_, hx, by simpa [spriteOrigin] using hy⟩
    simpa [effAddr, List.getD_eq_getElem?_getD, hr] using hb
  · rintro ⟨row, hr, col, hc, hb, hx, hy⟩
    refine ⟨row, by simpa using hr, by simpa [spriteOrigin] using hy, col, hc, ?_, hx⟩
    simpa [effAddr, List.getD_eq_getElem?_getD, hr] using hb

end Sys2Proof.Machine
end

