-- ==== Sys2Proof/Laws/Operands.lean ====
section
/-! SUPPORT. What each operand form and each host operation answers: the registers stored, the bytes loaded, the decimal
digits, the number of an encoded word, one timer under a tick. -/

namespace Sys2Proof.Machine

/-! ### Stack, read backwards (R15) -/

/-- What a pop that answered has done. -/
theorem State.pop_eq_some {s : State} {p : Word × State} (h : s.pop = some p) :
    ∃ k : Fin 16, s.sp.val = k.val + 1 ∧ p = (s.stack.get k, { s with sp := ⟨k.val, by omega⟩ }) := by
  unfold State.pop at h
  split at h
  · have := s.sp.isLt
    exact ⟨⟨s.sp.val - 1, by omega⟩, by simp; omega, by simpa using h.symm⟩
  · simp at h

/-- What a push that answered has done. -/
theorem State.push_eq_some {s t : State} {w : Word} (h : s.push w = some t) :
    ∃ k : s.sp.val < 16, t = { s with stack := s.stack.set s.sp.val w k, sp := ⟨s.sp.val + 1, by omega⟩ } := by
  unfold State.push at h
  split at h
  · next hk => exact ⟨hk, by simpa using h.symm⟩
  · simp at h

/-! ### Registers stored and loaded (R143, R144) -/

theorem effAddr_add (s : State) (k : Nat) : effAddr s k = effAddr s 0 + k := by simp [effAddr]

theorem regsUpTo_length (s : State) (x : RegIx) : (regsUpTo s x).length = x.val + 1 := by
  simp [regsUpTo]

theorem regsUpTo_getElem (s : State) (x k : RegIx) (h : k.val < (regsUpTo s x).length) :
    (regsUpTo s x)[k.val] = s.getV k := by
  simp [regsUpTo, State.getV, Vector.get_eq_getElem]

/-- The registers after loading n bytes from `a`: the first n are the bytes, the rest as before. -/
theorem State.getV_setRegs_loaded (s : State) (m : Memory) (a n : Nat) (r : RegIx) :
    (s.setRegs ((List.range n).map fun k => m.byteAt (a + k))).getV r =
      if r.val < n then m.byteAt (a + r.val) else s.getV r := by
  rw [State.getV_setRegs]
  split
  · next h => simp [List.getD_eq_getElem?_getD, h]
  · next h => rw [List.getD_eq_default _ _ (by simp; omega)]

/-! ### Decimal digits (R142) -/

@[simp] theorem decimalDigits_length (b : Byte) : (decimalDigits b).length = 3 := rfl

/-- Hundreds, tens and ones, as numbers. -/
theorem decimalDigits_toNat (b : Byte) :
    (decimalDigits b).map BitVec.toNat = [b.toNat / 100, b.toNat / 10 % 10, b.toNat % 10] := by
  have := b.isLt
  simp [decimalDigits]
  omega

/-! ### The words of the instructions that can fault, as numbers (R64) -/

theorem wordXNN_eq (t : Nibble) (x : RegIx) (nn : Byte) :
    wordXNN t x nn = BitVec.ofNat 16 (4096 * t.toNat + nn.toNat + 256 * x.val) := by
  apply BitVec.eq_of_toNat_eq; rw [wordXNN_toNat, BitVec.toNat_ofNat]; omega

theorem wordXYN_eq (t n : Nibble) (x y : RegIx) :
    wordXYN t x y n = BitVec.ofNat 16 (4096 * t.toNat + 256 * x.val + 16 * y.val + n.toNat) := by
  apply BitVec.eq_of_toNat_eq; rw [wordXYN_toNat, BitVec.toNat_ofNat]; omega

theorem wordNNN_eq (t : Nibble) (nnn : Addr) : wordNNN t nnn = BitVec.ofNat 16 (4096 * t.toNat + nnn.toNat) := by
  apply BitVec.eq_of_toNat_eq; rw [wordNNN_toNat, BitVec.toNat_ofNat]; omega

/-! ### Timers (R185) -/

theorem tickTimer_toNat (b : Byte) : (tickTimer b).toNat = b.toNat - 1 := by
  have := b.isLt
  unfold tickTimer
  split
  · rw [BitVec.toNat_sub]; simp; omega
  · omega

end Sys2Proof.Machine
end

