-- ==== Sys2Proof/Laws/PerInstr.lean ====
section
/-! SUPPORT. Statements made of every instruction as syntax, one lemma per constructor. -/

namespace Sys2Proof.Laws.OwnRow

/-- The word of an instruction is one its own row of the opcode map accepts (R64). -/
def Statement (i : Instr) : Prop := i.row.accepts (encode i) = true

variable (x y : RegIx) (nn : Byte) (nnn : Addr) (n : Fin 16)

theorem cls : Statement .cls := rfl
theorem ret : Statement .ret := rfl
theorem jp : Statement (.jp nnn) := by
  simp [Statement, OpcodeRow.accepts, Instr.row, encode, and_maskNNN]; decide
theorem call : Statement (.call nnn) := by
  simp [Statement, OpcodeRow.accepts, Instr.row, encode, and_maskNNN]; decide
theorem seByte : Statement (.seByte x nn) := by
  simp [Statement, OpcodeRow.accepts, Instr.row, encode, and_maskNNN]; decide
theorem sneByte : Statement (.sneByte x nn) := by
  simp [Statement, OpcodeRow.accepts, Instr.row, encode, and_maskNNN]; decide
theorem seReg : Statement (.seReg x y) := by
  simp [Statement, OpcodeRow.accepts, Instr.row, encode, and_maskXYN]; decide
theorem ldByte : Statement (.ldByte x nn) := by
  simp [Statement, OpcodeRow.accepts, Instr.row, encode, and_maskNNN]; decide
theorem addByte : Statement (.addByte x nn) := by
  simp [Statement, OpcodeRow.accepts, Instr.row, encode, and_maskNNN]; decide
theorem ldReg : Statement (.ldReg x y) := by
  simp [Statement, OpcodeRow.accepts, Instr.row, encode, and_maskXYN]; decide
theorem orReg : Statement (.orReg x y) := by
  simp [Statement, OpcodeRow.accepts, Instr.row, encode, and_maskXYN]; decide
theorem andReg : Statement (.andReg x y) := by
  simp [Statement, OpcodeRow.accepts, Instr.row, encode, and_maskXYN]; decide
theorem xorReg : Statement (.xorReg x y) := by
  simp [Statement, OpcodeRow.accepts, Instr.row, encode, and_maskXYN]; decide
theorem addReg : Statement (.addReg x y) := by
  simp [Statement, OpcodeRow.accepts, Instr.row, encode, and_maskXYN]; decide
theorem subReg : Statement (.subReg x y) := by
  simp [Statement, OpcodeRow.accepts, Instr.row, encode, and_maskXYN]; decide
theorem shr : Statement (.shr x y) := by
  simp [Statement, OpcodeRow.accepts, Instr.row, encode, and_maskXYN]; decide
theorem subnReg : Statement (.subnReg x y) := by
  simp [Statement, OpcodeRow.accepts, Instr.row, encode, and_maskXYN]; decide
theorem shl : Statement (.shl x y) := by
  simp [Statement, OpcodeRow.accepts, Instr.row, encode, and_maskXYN]; decide
theorem sneReg : Statement (.sneReg x y) := by
  simp [Statement, OpcodeRow.accepts, Instr.row, encode, and_maskXYN]; decide
theorem ldI : Statement (.ldI nnn) := by
  simp [Statement, OpcodeRow.accepts, Instr.row, encode, and_maskNNN]; decide
theorem jpV0 : Statement (.jpV0 nnn) := by
  simp [Statement, OpcodeRow.accepts, Instr.row, encode, and_maskNNN]; decide
theorem rnd : Statement (.rnd x nn) := by
  simp [Statement, OpcodeRow.accepts, Instr.row, encode, and_maskNNN]; decide
theorem drw : Statement (.drw x y n) := by
  simp [Statement, OpcodeRow.accepts, Instr.row, encode, and_maskNNN]; decide
theorem skp : Statement (.skp x) := by
  simp [Statement, OpcodeRow.accepts, Instr.row, encode, and_maskXNN]; decide
theorem sknp : Statement (.sknp x) := by
  simp [Statement, OpcodeRow.accepts, Instr.row, encode, and_maskXNN]; decide
theorem ldVxDT : Statement (.ldVxDT x) := by
  simp [Statement, OpcodeRow.accepts, Instr.row, encode, and_maskXNN]; decide
theorem ldVxK : Statement (.ldVxK x) := by
  simp [Statement, OpcodeRow.accepts, Instr.row, encode, and_maskXNN]; decide
theorem ldDTVx : Statement (.ldDTVx x) := by
  simp [Statement, OpcodeRow.accepts, Instr.row, encode, and_maskXNN]; decide
theorem ldSTVx : Statement (.ldSTVx x) := by
  simp [Statement, OpcodeRow.accepts, Instr.row, encode, and_maskXNN]; decide
theorem addI : Statement (.addI x) := by
  simp [Statement, OpcodeRow.accepts, Instr.row, encode, and_maskXNN]; decide
theorem ldB : Statement (.ldB x) := by
  simp [Statement, OpcodeRow.accepts, Instr.row, encode, and_maskXNN]; decide
theorem ldMemVx : Statement (.ldMemVx x) := by
  simp [Statement, OpcodeRow.accepts, Instr.row, encode, and_maskXNN]; decide
theorem ldVxMem : Statement (.ldVxMem x) := by
  simp [Statement, OpcodeRow.accepts, Instr.row, encode, and_maskXNN]; decide

end Sys2Proof.Laws.OwnRow
end

