-- ==== Sys2Proof/Tests/Slice0.lean ====
section
/-! SUPPORT. The package's own tests: the smoke test of WellFormed, one word per constructor written out from its
pattern, at most two single steps per instruction on a small state, and a witness for every statement that has
hypotheses. Expected results are those of spec/95_test_vectors.md (the vector's id stands before each test) or of the
rule cited. -/

namespace Sys2Proof.Tests

open Sys2Proof.Machine

-- one theorem after another: many small tests at once take more threads than the sandbox gives
set_option Elab.async false

/-! ### WellFormed refuses what is ill formed -/

/-- R64: a match with a bit outside its mask is matched by no word. -/
theorem smoke_row_value_outside_mask : (OpcodeRow.mk "BAD" 0xF000 0x1001).wellFormed = false := by decide

/-- R64: two rows that one word matches do not exclude each other. -/
theorem smoke_rows_overlap : (OpcodeRow.mk "A" 0xF000 0x8000).excludes (OpcodeRow.mk "B" 0xF00F 0x8001) = false := by
  decide

/-- R64: a map with such a pair is ill formed, and so is one with an ill-formed row. -/
theorem smoke_map_refused :
    mapWellFormed [Instr.row (.jp 0), ⟨"DUP", 0xFF00, 0x1200⟩] = false ∧
    mapWellFormed [⟨"BAD", 0xF000, 0x1001⟩] = false := by decide

/-- R65, R66: a word whose fixed digits are no row's is refused. -/
theorem smoke_word_refused : wordWellFormed 0xF029 = false ∧ wordWellFormed 0x5121 = false ∧
    wordWellFormed 0x0000 = false := by decide

/-- The opcode map itself is well formed (R64), and a word of it is. -/
theorem smoke_map_accepted : mapWellFormed opcodeRows = true ∧ wordWellFormed 0x5120 = true := by decide

/-! ### Decoding: for every constructor a word written out from its pattern (R64) -/

theorem test_decode_cls : decodeWord 0x00E0 = .ok .cls := by decide
theorem test_decode_ret : decodeWord 0x00EE = .ok .ret := by decide
theorem test_decode_jp : decodeWord 0x1A5C = .ok (.jp 0xA5C) := by decide
theorem test_decode_call : decodeWord 0x2ABC = .ok (.call 0xABC) := by decide
theorem test_decode_seByte : decodeWord 0x3B5A = .ok (.seByte 11 0x5A) := by decide
theorem test_decode_sneByte : decodeWord 0x4C3D = .ok (.sneByte 12 0x3D) := by decide
theorem test_decode_seReg : decodeWord 0x5AB0 = .ok (.seReg 10 11) := by decide
theorem test_decode_ldByte : decodeWord 0x6F07 = .ok (.ldByte 15 0x07) := by decide
theorem test_decode_addByte : decodeWord 0x7301 = .ok (.addByte 3 0x01) := by decide
theorem test_decode_ldReg : decodeWord 0x81E0 = .ok (.ldReg 1 14) := by decide
theorem test_decode_orReg : decodeWord 0x81E1 = .ok (.orReg 1 14) := by decide
theorem test_decode_andReg : decodeWord 0x81E2 = .ok (.andReg 1 14) := by decide
theorem test_decode_xorReg : decodeWord 0x81E3 = .ok (.xorReg 1 14) := by decide
theorem test_decode_addReg : decodeWord 0x81E4 = .ok (.addReg 1 14) := by decide
theorem test_decode_subReg : decodeWord 0x8CD5 = .ok (.subReg 12 13) := by decide
theorem test_decode_shr : decodeWord 0x81E6 = .ok (.shr 1 14) := by decide
theorem test_decode_subnReg : decodeWord 0x81E7 = .ok (.subnReg 1 14) := by decide
theorem test_decode_shl : decodeWord 0x81EE = .ok (.shl 1 14) := by decide
theorem test_decode_sneReg : decodeWord 0x9AB0 = .ok (.sneReg 10 11) := by decide
theorem test_decode_ldI : decodeWord 0xAFED = .ok (.ldI 0xFED) := by decide
theorem test_decode_jpV0 : decodeWord 0xB123 = .ok (.jpV0 0x123) := by decide
theorem test_decode_rnd : decodeWord 0xC70F = .ok (.rnd 7 0x0F) := by decide
theorem test_decode_drw : decodeWord 0xD3E7 = .ok (.drw 3 14 7) := by decide
theorem test_decode_skp : decodeWord 0xE49E = .ok (.skp 4) := by decide
theorem test_decode_sknp : decodeWord 0xE9A1 = .ok (.sknp 9) := by decide
theorem test_decode_ldVxDT : decodeWord 0xF307 = .ok (.ldVxDT 3) := by decide
theorem test_decode_ldVxK : decodeWord 0xF20A = .ok (.ldVxK 2) := by decide
theorem test_decode_ldDTVx : decodeWord 0xFA15 = .ok (.ldDTVx 10) := by decide
theorem test_decode_ldSTVx : decodeWord 0xFB18 = .ok (.ldSTVx 11) := by decide
theorem test_decode_addI : decodeWord 0xF21E = .ok (.addI 2) := by decide
theorem test_decode_ldB : decodeWord 0xF633 = .ok (.ldB 6) := by decide
theorem test_decode_ldMemVx : decodeWord 0xF355 = .ok (.ldMemVx 3) := by decide
theorem test_decode_ldVxMem : decodeWord 0xFD65 = .ok (.ldVxMem 13) := by decide

/-- R66 (D8): words next to an instruction's that are none. -/
theorem test_decode_rejects :
    decodeWord 0x00E1 = .error (.unrecognizedOpcode 0x00E1) ∧ decodeWord 0x8128 = .error (.unrecognizedOpcode 0x8128) ∧
    decodeWord 0xE49F = .error (.unrecognizedOpcode 0xE49F) ∧ decodeWord 0xF029 = .error (.unrecognizedOpcode 0xF029) := by
  decide

/-- R45, R60: high byte first, and one byte is no instruction. -/
theorem test_decode_bytes :
    decodeBytes [0x12, 0x0A, 0xFF] = .ok (.jp 0x20A, [0xFF]) ∧ decodeBytes [0x12] = .error .truncated ∧
    decodeTableWord 16 0xD012 = some (.drw 0 1 2) := by decide

/-! ### Single steps -/

/-- The state a step left, if it is a next state. -/
def nextOf : Result → Option State
  | .next t => some t
  | .fault _ => none
  | .refused _ => none

/-- The state an instruction left, or the one before it. -/
def after (i : Instr) (s : State) : State := (nextOf (exec i s)).getD s

/-- One step from `s` with this word where the step fetches, and one thing to look at after it. -/
def runWord {α : Type} (s : State) (w : Nat) (look : State → α) : Option α :=
  (nextOf (step (s.withFetchWord 16 w))).map look

/-- The reset state with these registers. -/
def withV (l : List (RegIx × Byte)) : State := l.foldl (fun s p => s.setV p.1 p.2) State.reset

/-- The state with these bytes in memory from `a`. -/
def poke (s : State) (a : Nat) (bs : List Byte) : State := { s with mem := s.mem.putBytes a bs }

/-- The state with these cells of the framebuffer turned over. -/
def light (s : State) (l : List (Nat × Nat)) : State := { s with fb := l.foldl (fun f p => fbToggle f p.1 p.2) s.fb }

/-- The key vector with these keys down. -/
def keysDown (l : List (Fin 16)) : Vector Bool 16 := Vector.ofFn fun k => l.contains k

/-- The bytes of memory from `a`. -/
def bytes (s : State) (a n : Nat) : List Byte := (List.range n).map fun k => s.mem.byteAt (a + k)

/-- PC at fetch, as a start. -/
def at_ (pc : Word) (s : State) : State := { s with pc := pc }

/-- VX1 -/
theorem test_step_reset_word :
    ((nextOf (step State.reset)).map fun t => (t.pc, t.anomalyCount, t.lastAnomaly)) =
      some (0x202, 1, some (0x200, 0x0000)) := by decide +kernel

/-- VX5 -/
theorem test_step_last_word :
    (runWord (at_ 0xFFE State.reset) 0x602A fun t => (t.getV 0, t.pc, t.halted)) =
      some (0x2A, 0x1000, false) := by decide +kernel

/-- VX4 -/
theorem test_step_fetch_fault :
    ((nextOf (step (at_ 0xFFF State.reset))).map fun t => (t.fault, t.pc)) =
      some (some ⟨.programCounterOutOfBounds, 0x0FFF, none, 0⟩, 0xFFF) := by decide +kernel

/-- VX6 -/
theorem test_step_odd_pc :
    (runWord (at_ 0x201 State.reset) 0x6A42 fun t => (t.getV 10, t.pc)) =
      some (0x42, 0x203) := by decide +kernel

/-- VX8 -/
theorem test_step_near_miss :
    (runWord (withV [(1, 1), (2, 1)]) 0x5121 fun t => (t.pc, t.lastAnomaly)) =
      some (0x202, some (0x200, 0x5121)) := by decide +kernel

/-- VD1 -/
theorem test_cls :
    (runWord (light (withV [(15, 1)]) [(0, 0), (63, 31)]) 0x00E0 fun t => (t.fb, t.redraw, t.getV 15)) =
      some (0, true, 1) := by decide +kernel

/-- VT1 -/
theorem test_ret :
    (runWord { at_ 0x212 State.reset with sp := 1, stack := (Vector.replicate 16 0).set 0 0x20C } 0x00EE fun t =>
      (t.pc, t.sp, t.stack.get 0)) =
      some (0x20C, 0, 0x20C) := by decide +kernel

/-- VT2 -/
theorem test_ret_underflow :
    (runWord (at_ 0x212 State.reset) 0x00EE fun t => (t.fault, t.pc)) =
      some (some ⟨.stackUnderflow, 0x214, some 0x00EE, 0⟩, 0x214) := by decide +kernel

/-- VT3 -/
theorem test_jp :
    (runWord (at_ 0x20A State.reset) 0x1204 fun t => t.pc) =
      some 0x204 := by decide +kernel

/-- VT6 -/
theorem test_call :
    (runWord { at_ 0x20A State.reset with sp := 15 } 0x2210 fun t => (t.stack.get 15, t.sp, t.pc)) =
      some (0x20C, 16, 0x210) := by decide +kernel

/-- VT7 -/
theorem test_call_overflow :
    (runWord { at_ 0x20A State.reset with sp := 16 } 0x2210 fun t => (t.fault, t.pc, t.stack.get 15)) =
      some (some ⟨.stackOverflow, 0x20C, some 0x2210, 16⟩, 0x20C, 0) := by decide +kernel

/-- VT9 -/
theorem test_jpV0 :
    (runWord (withV [(0, 0xFF)]) 0xBFFF fun t => t.pc) =
      some 0x10FE := by decide +kernel

/-- VS1 -/
theorem test_seByte_skips :
    (runWord (at_ 0x208 (withV [(0, 5)])) 0x3005 fun t => t.pc) =
      some 0x20C := by decide +kernel

/-- VS2 -/
theorem test_seByte_falls :
    (runWord (at_ 0x208 (withV [(0, 4)])) 0x3005 fun t => t.pc) =
      some 0x20A := by decide +kernel

/-- VS3 -/
theorem test_sneByte_skips :
    (runWord (at_ 0x300 (withV [(3, 0x10)])) 0x4311 fun t => t.pc) =
      some 0x304 := by decide +kernel

/-- VS4 -/
theorem test_sneByte_falls :
    (runWord (at_ 0x300 (withV [(3, 0x10)])) 0x4310 fun t => t.pc) =
      some 0x302 := by decide +kernel

/-- VS5 -/
theorem test_seReg_skips :
    (runWord (withV [(1, 0x7F), (2, 0x7F)]) 0x5120 fun t => t.pc) =
      some 0x204 := by decide +kernel

/-- VS6 -/
theorem test_seReg_falls :
    (runWord (withV [(1, 0x7F), (2, 0x7E)]) 0x5120 fun t => t.pc) =
      some 0x202 := by decide +kernel

/-- VS8 -/
theorem test_sneReg_skips :
    (runWord (withV [(1, 1), (2, 2)]) 0x9120 fun t => t.pc) =
      some 0x204 := by decide +kernel

/-- VS10 -/
theorem test_sneReg_self :
    (runWord (withV [(3, 9)]) 0x9330 fun t => t.pc) =
      some 0x202 := by decide +kernel

/-- VA1 -/
theorem test_ldByte :
    (runWord State.reset 0x60FE fun t => t.getV 0) =
      some 0xFE := by decide +kernel

/-- VA3 -/
theorem test_addByte_wraps :
    (runWord (withV [(0, 0xFE), (15, 0x55)]) 0x7003 fun t => (t.getV 0, t.getV 15)) =
      some (0x01, 0x55) := by decide +kernel

/-- VA4 -/
theorem test_addByte_to_vf :
    (runWord (withV [(15, 0xFF)]) 0x7F01 fun t => t.getV 15) =
      some 0x00 := by decide +kernel

/-- VA5 -/
theorem test_ldReg :
    (runWord (withV [(1, 0x11), (2, 0x33)]) 0x8120 fun t => (t.getV 1, t.getV 2)) =
      some (0x33, 0x33) := by decide +kernel

/-- VA6 -/
theorem test_orReg :
    (runWord (withV [(1, 0xF0), (2, 0x0F), (15, 0x77)]) 0x8121 fun t => (t.getV 1, t.getV 15)) =
      some (0xFF, 0x77) := by decide +kernel

/-- VA7 -/
theorem test_andReg :
    (runWord (withV [(1, 0xF3), (2, 0x3F), (15, 0x77)]) 0x8122 fun t => (t.getV 1, t.getV 15)) =
      some (0x33, 0x77) := by decide +kernel

/-- VA8 -/
theorem test_xorReg :
    (runWord (withV [(1, 0xFF), (2, 0x0F), (15, 0x77)]) 0x8123 fun t => (t.getV 1, t.getV 15)) =
      some (0xF0, 0x77) := by decide +kernel

/-- VA12 -/
theorem test_addReg_255 :
    (runWord (withV [(1, 0xFF), (15, 1)]) 0x8124 fun t => (t.getV 1, t.getV 15)) =
      some (0xFF, 0) := by decide +kernel

/-- VA16 -/
theorem test_addReg_to_vf :
    (runWord (withV [(1, 0x10), (15, 0xF8)]) 0x8F14 fun t => (t.getV 15, t.getV 1)) =
      some (0x08, 0x10) := by decide +kernel

/-- VA18 -/
theorem test_subReg_borrow :
    (runWord (withV [(1, 0x05), (2, 0x0A)]) 0x8125 fun t => (t.getV 1, t.getV 15)) =
      some (0xFB, 0) := by decide +kernel

/-- VA20 -/
theorem test_subReg_equal :
    (runWord (withV [(1, 7), (2, 7)]) 0x8125 fun t => (t.getV 1, t.getV 15)) =
      some (0x00, 1) := by decide +kernel

/-- VA27 -/
theorem test_shr_ignores_vy :
    (runWord (withV [(1, 0x04), (2, 0xFF), (15, 1)]) 0x8126 fun t => (t.getV 1, t.getV 2, t.getV 15)) =
      some (0x02, 0xFF, 0) := by decide +kernel

/-- VA28 -/
theorem test_shr_of_vf :
    (runWord (withV [(15, 0x03)]) 0x8F06 fun t => t.getV 15) =
      some 0x01 := by decide +kernel

/-- VA29 -/
theorem test_subnReg_borrow :
    (runWord (withV [(1, 0x0A), (2, 0x05)]) 0x8127 fun t => (t.getV 1, t.getV 15)) =
      some (0xFB, 0) := by decide +kernel

/-- VA32 -/
theorem test_subnReg_to_vf :
    (runWord (withV [(1, 3), (15, 5)]) 0x8F17 fun t => t.getV 15) =
      some 0xFE := by decide +kernel

/-- VA33 -/
theorem test_shl :
    (runWord (withV [(1, 0x81)]) 0x810E fun t => (t.getV 1, t.getV 15)) =
      some (0x02, 1) := by decide +kernel

/-- VA37 -/
theorem test_shl_of_vf :
    (runWord (withV [(15, 0xC1)]) 0x8F0E fun t => t.getV 15) =
      some 0x82 := by decide +kernel

/-- VM2 -/
theorem test_ldI :
    (runWord State.reset 0xAFFF fun t => t.i) =
      some 0x0FFF := by decide +kernel

/-- VM4 -/
theorem test_addI_past_fff :
    (runWord { withV [(2, 1), (15, 9)] with i := 0x0FFF } 0xF21E fun t => (t.i, t.getV 15)) =
      some (0x1000, 9) := by decide +kernel

/-- VM5 -/
theorem test_addI_wraps :
    (runWord { withV [(2, 1)] with i := 0xFFFF } 0xF21E fun t => t.i) =
      some 0x0000 := by decide +kernel

/-- VM6, W8 -/
theorem test_ldB :
    (runWord { withV [(0, 157)] with i := 0x300 } 0xF033 fun t => (bytes t 0x300 3, t.i)) =
      some ([1, 5, 7], 0x300) := by decide +kernel

/-- VM12 -/
theorem test_ldB_out_of_range :
    (runWord { withV [(0, 123)] with i := 0xFFE } 0xF033 fun t => (t.fault, bytes t 0xFFE 2)) =
      some (some ⟨.memoryAccessOutOfBounds, 0x202, some 0xF033, 0⟩, [0, 0]) := by decide +kernel

/-- VM13 -/
theorem test_ldMemVx :
    (runWord { withV [(0, 0x11), (1, 0x22), (2, 0x33), (3, 0x44), (4, 0x55)] with i := 0x400 } 0xF355 fun t =>
      (bytes t 0x400 5, t.i)) =
      some ([0x11, 0x22, 0x33, 0x44, 0], 0x400) := by decide +kernel

/-- VM15 -/
theorem test_ldMemVx_out_of_range :
    (runWord { withV [(0, 0xAB), (1, 0xCD)] with i := 0xFFF } 0xF155 fun t => (t.fault, t.mem.byteAt 0xFFF)) =
      some (some ⟨.memoryAccessOutOfBounds, 0x202, some 0xF155, 0⟩, 0) := by decide +kernel

/-- VM16 -/
theorem test_ldVxMem :
    (runWord { poke (withV [(3, 0xEE)]) 0x300 [1, 5, 7, 9] with i := 0x300 } 0xF265 fun t =>
      (t.getV 0, t.getV 1, t.getV 2, t.getV 3, t.i)) =
      some (1, 5, 7, 0xEE, 0x300) := by decide +kernel

/-- VM17 -/
theorem test_ldVxMem_out_of_range :
    (runWord { withV [(0, 0x77)] with i := 0xFFF } 0xF165 fun t => (t.fault, t.getV 0)) =
      some (some ⟨.memoryAccessOutOfBounds, 0x202, some 0xF165, 0⟩, 0x77) := by decide +kernel

/-- VD7 -/
theorem test_drw_collision :
    (runWord { poke (light (withV [(0, 2), (1, 3)]) [(3, 3), (10, 10)]) 0x300 [0xC0] with i := 0x300 } 0xD011 fun t =>
      (fbCell t.fb 2 3, fbCell t.fb 3 3, fbCell t.fb 10 10, t.getV 15)) =
      some (true, false, true, 1) := by decide +kernel

/-- VD5 -/
theorem test_drw_wraps :
    (runWord { poke (withV [(1, 31)]) 0x300 [0x80, 0x80] with i := 0x300 } 0xD012 fun t =>
      (fbCell t.fb 0 31, fbCell t.fb 0 0, t.getV 15)) =
      some (true, true, 0) := by decide +kernel

/-- VK1 -/
theorem test_ldVxDT :
    (runWord { State.reset with dt := 0x2A } 0xF307 fun t => (t.getV 3, t.dt)) =
      some (0x2A, 0x2A) := by decide +kernel

/-- VK2 -/
theorem test_ldDTVx :
    (runWord (withV [(0, 0x3C)]) 0xF015 fun t => t.dt) =
      some 0x3C := by decide +kernel

/-- VK3 -/
theorem test_ldSTVx :
    (runWord (withV [(0, 5)]) 0xF018 fun t => t.st) =
      some 0x05 := by decide +kernel

/-- VK4 -/
theorem test_ldVxK :
    (runWord { at_ 0x20A State.reset with keys := keysDown [7] } 0xF20A fun t => (t.wait, t.pc, t.getV 2)) =
      some (some 2, 0x20C, 0) := by decide +kernel

/-- VK4b -/
theorem test_key_poll :
    ((nextOf (step { at_ 0x20C State.reset with keys := keysDown [7], wait := some 2 })).map fun t =>
      (t.getV 2, t.wait, t.pc)) =
      some (7, none, 0x20C) := by decide +kernel

/-- VK5 -/
theorem test_skp :
    (runWord { at_ 0x220 (withV [(4, 10)]) with keys := keysDown [10] } 0xE49E fun t => t.pc) =
      some 0x224 := by decide +kernel

/-- VK9 -/
theorem test_skp_bad_key :
    (runWord { at_ 0x220 (withV [(4, 0x10)]) with keys := keysDown [0] } 0xE49E fun t => (t.fault, t.pc)) =
      some (some ⟨.keyIndexOutOfRange, 0x222, some 0xE49E, 0⟩, 0x222) := by decide +kernel

/-- VK7 -/
theorem test_sknp :
    (runWord (at_ 0x220 (withV [(4, 10)])) 0xE4A1 fun t => t.pc) =
      some 0x224 := by decide +kernel

/-- VK10 -/
theorem test_sknp_bad_key :
    (runWord (at_ 0x220 (withV [(4, 0xFF)])) 0xE4A1 fun t => t.fault) =
      some (some ⟨.keyIndexOutOfRange, 0x222, some 0xE4A1, 0⟩) := by decide +kernel

/-- VA39, and the low nibble of VA38's mask: whatever the free byte is, the bits outside NN are 0 (R132). -/
theorem test_rnd_masked :
    ((nextOf (exec (.rnd 1 0x0F) State.reset)).map fun t => (t.getV 1 &&& 0xF0, t.draws)) = some (0, 1) := by
  show some (_, _) = _
  have h : (State.reset.setV 1 (Config.randByte 0 &&& 0x0F)).getV 1 &&& 0xF0 = 0 := by
    rw [State.getV_setV, if_pos rfl, BitVec.and_assoc]
    simp
  exact congrArg (fun b => some (b, 1)) h

/-- VK4d: with keys 7 and 11 down the poll takes one of the two, whichever the free number picks. -/
theorem test_key_poll_two (c : Nat) : pickKey 7 [11] c = 7 ∨ pickKey 7 [11] c = 11 := by
  simpa using pickKey_mem 7 [11] c

/-- VK11, VK12: a tick takes 1 and stops at 0. -/
theorem test_tick :
    ({ State.reset with dt := 2, st := 0 } : State).tick = { State.reset with dt := 1, st := 0 } ∧
    ({ State.reset with dt := 0, st := 1 } : State).tick = { State.reset with dt := 0, st := 0 } := by decide +kernel

/-- VL6: a second, shorter image leaves the bytes beyond it. -/
theorem test_load_twice :
    bytes ((State.reset.loadOrKeep [0xAA, 0xBB, 0xCC, 0xDD]).loadOrKeep [0x11, 0x22]) 0x200 4 =
      [0x11, 0x22, 0xCC, 0xDD] := by decide +kernel

/-- VM18: the first bytes of the default FONT. -/
theorem test_font : bytes State.reset 0 5 = [0xF0, 0x90, 0x90, 0x90, 0xF0] ∧ State.reset.mem.byteAt 0x4F = 0x80 ∧
    State.reset.mem.byteAt 0x50 = 0 := by decide +kernel

/-- R183, VX7: a fault is left by a reset only, and a halted step changes nothing. -/
theorem test_fault_sticks_until_reset :
    (nextOf (runSchedule [.step, .step, .step] { State.reset with pc := 0xFFF })).map (fun t => (t.halted, t.pc)) =
      some (true, 0xFFF) ∧
    (nextOf (runSchedule [.step, .reset (Vector.replicate 80 0), .tick] { State.reset with pc := 0xFFF })).map
      (fun t => (t.halted, t.pc)) = some (false, 0x200) := by decide +kernel

/-! ### Witnesses: a concrete state and operands for the hypotheses of each statement, at the ends of their ranges -/

/-- A state with something in every part, which meets the invariant: PC at its bound, one entry on the stack at its
bound, memory listed, an anomaly counted, a register waiting. -/
def busy : State :=
  { poke (withV [(0, 0x2A), (15, 1)]) 0x200 [0xAB, 0xCD] with
    i := 0x300, pc := 0x10FE, stack := (Vector.replicate 16 0).set 0 0x1000, sp := 1, dt := 3, st := 4,
    fb := fbToggle 0 1 1, redraw := true, wait := some 2, anomalyCount := 1, lastAnomaly := some (0x200, 0),
    keys := keysDown [7] }

/-- A halted state with its record. -/
def stopped : State :=
  { State.reset with pc := 0x202, halted := true, fault := some ⟨.stackUnderflow, 0x202, some 0x00EE, 0⟩ }

theorem busy_inv : busy.Inv where
  memWf := by decide +kernel
  faultValid := rfl
  haltedNotWaiting := by decide
  recordFits := by intro f h; cases h
  anomalyFits := by decide
  pcBound := by decide
  stackBound := by decide +kernel

theorem stopped_inv : stopped.Inv where
  memWf := rfl
  faultValid := rfl
  haltedNotWaiting := by decide
  recordFits := by intro f h; cases h; decide
  anomalyFits := by decide
  pcBound := by decide
  stackBound := by decide +kernel

theorem witness_DecodeOfEncodeIsTheInstruction_needs_none :
    encodeBytes (.drw 15 15 15) = [0xDF, 0xFF] := by decide

theorem witness_EncodeOfDecodeIsTheWord :
    decodeWord 0xFFFF ≠ .ok .cls ∧ decodeWord 0xDFFF = .ok (.drw 15 15 15) := by decide

theorem witness_DecoderAcceptsExactlyTheMap :
    decodeWord 0x1FFF = .ok (.jp 0xFFF) ∧ (Instr.row (.jp 0)) ∈ opcodeRows ∧
      0x1FFF &&& (Instr.row (.jp 0)).mask = (Instr.row (.jp 0)).value := by decide

theorem witness_NoWordMatchesTwoRows :
    Instr.row (.skp 0) ∈ opcodeRows ∧ 0xEF9E &&& (Instr.row (.skp 0)).mask = (Instr.row (.skp 0)).value := by decide

theorem witness_FetchIsBigEndian :
    (at_ 0xFFE State.reset).pc.toNat ≤ 0xFFE ∧ (at_ 0 State.reset).pc.toNat ≤ 0xFFE := by decide

theorem witness_StepRunsTheDecodedInstruction :
    let s := (at_ 0xFFE State.reset).withFetchWord 16 0x602A
    s.halted = false ∧ s.wait = none ∧ s.pc.toNat ≤ 0xFFE ∧
      decodeWord (wordOfBytes (s.mem.byteAt s.pc.toNat) (s.mem.byteAt (s.pc.toNat + 1))) = .ok (.ldByte 0 0x2A) := by decide +kernel

theorem witness_UnrecognisedWordIsReportedAndSkipped :
    let s := (at_ 0xFFE State.reset).withFetchWord 16 0xFFFF
    s.halted = false ∧ s.wait = none ∧ s.pc.toNat ≤ 0xFFE ∧
      decodeWord (wordOfBytes (s.mem.byteAt s.pc.toNat) (s.mem.byteAt (s.pc.toNat + 1))) =
        .error (.unrecognizedOpcode 0xFFFF) := by decide +kernel

theorem witness_FetchOutOfRangeFaults :
    let s := at_ 0xFFF State.reset
    s.halted = false ∧ s.wait = none ∧ 0xFFE < s.pc.toNat := by decide

theorem witness_HaltedStepChangesNothing :
    stopped.halted = true := by decide

theorem witness_KeyPollWaits :
    let s : State := { State.reset with wait := some 15 }
    s.halted = false ∧ s.wait = some 15 ∧ (∀ k : Fin 16, s.keys.get k = false) := by decide +kernel

theorem witness_KeyPollTakesAPressedKey :
    let s : State := { State.reset with wait := some 0, keys := keysDown [0, 15] }
    s.halted = false ∧ s.wait = some 0 ∧ s.keys.get 0 = true ∧ s.keys.get 15 = true := by decide +kernel

theorem witness_RetPops :
    ({ State.reset with sp := 1 } : State).sp.val = (0 : Fin 16).val + 1 ∧
    ({ State.reset with sp := 16 } : State).sp.val = (15 : Fin 16).val + 1 := by decide

theorem witness_RetUnderflows :
    State.reset.sp = 0 := by decide

theorem witness_CallPushes :
    State.reset.sp.val = (0 : Fin 16).val ∧ ({ State.reset with sp := 15 } : State).sp.val = (15 : Fin 16).val := by decide

theorem witness_CallOverflows :
    ({ State.reset with sp := 16 } : State).sp.val = 16 := by decide

theorem witness_CallThenRetReturns :
    ∃ s t u : State, s.sp.val < 16 ∧ s.sp.val = 15 ∧ exec (.call 0x300) s = .next t ∧ u.stack = t.stack ∧ u.sp = t.sp ∧
      u.getV 0 ≠ t.getV 0 := by
  refine ⟨{ State.reset with sp := 15 }, after (.call 0x300) { State.reset with sp := 15 },
    (after (.call 0x300) { State.reset with sp := 15 }).setV 0 1, by decide, by decide, rfl, rfl, rfl, by decide +kernel⟩

theorem witness_SelfJumpIsAFixedPoint :
    let s := (at_ 0xFFE State.reset).withFetchWord 16 0x1FFE
    s.halted = false ∧ s.wait = none ∧ s.pc.toNat = (0xFFE : Addr).toNat ∧ (0xFFE : Addr).toNat ≤ 0xFFE ∧
      256 * (s.mem.byteAt s.pc.toNat).toNat + (s.mem.byteAt (s.pc.toNat + 1)).toNat = 0x1000 + (0xFFE : Addr).toNat := by decide +kernel

theorem witness_BitwiseOperations :
    0 < 8 ∧ 7 < 8 := by decide

theorem witness_AddRegistersWithCarry :
    (14 : RegIx) ≠ vf ∧ (0 : RegIx) ≠ 14 ∧ (0 : RegIx) ≠ vf := by decide

theorem witness_SubtractRegistersWithNoBorrow :
    (14 : RegIx) ≠ vf ∧ (0 : RegIx) ≠ 14 ∧ (0 : RegIx) ≠ vf := by decide

theorem witness_ShiftRightByOne :
    (14 : RegIx) ≠ vf ∧ (0 : RegIx) ≠ 14 ∧ (0 : RegIx) ≠ vf := by decide

theorem witness_ReverseSubtractWithNoBorrow :
    (14 : RegIx) ≠ vf ∧ (0 : RegIx) ≠ 14 ∧ (0 : RegIx) ≠ vf := by decide

theorem witness_ShiftLeftByOne :
    (14 : RegIx) ≠ vf ∧ (0 : RegIx) ≠ 14 ∧ (0 : RegIx) ≠ vf := by decide

theorem witness_RandomByteIsMasked :
    (0x0F : Byte).getLsbD 4 = false ∧ (0x0F : Byte).getLsbD 7 = false := by decide

theorem witness_StoreDecimalDigits :
    effAddr { State.reset with i := 0xFFD } 2 ≤ 0xFFF ∧ 0xFFF < effAddr { State.reset with i := 0xFFE } 2 ∧
    0xFFC < effAddr { State.reset with i := 0xFFD } 0 ∧ effAddr { State.reset with i := 0xFFC } 2 < 0xFFF := by decide

theorem witness_StoreRegisters :
    effAddr { State.reset with i := 0xFF0 } (15 : RegIx).val ≤ 0xFFF ∧
    0xFFF < effAddr { State.reset with i := 0xFF1 } (15 : RegIx).val ∧ effAddr { State.reset with i := 0xFFF } (0 : RegIx).val ≤ 0xFFF ∧
    0xFFF < effAddr { State.reset with i := 0x1000 } (0 : RegIx).val := by decide

theorem witness_LoadRegisters :
    effAddr { State.reset with i := 0xFF0 } (15 : RegIx).val ≤ 0xFFF ∧
    0xFFF < effAddr { State.reset with i := 0xFF1 } (15 : RegIx).val ∧ (0 : RegIx) ≤ 0 ∧ (14 : RegIx) < 15 := by decide

theorem witness_StoredRegistersLoadBack :
    ∃ s t u : State, effAddr s (3 : RegIx).val ≤ 0xFFF ∧ effAddr s (3 : RegIx).val = 0xFFF ∧ exec (.ldMemVx 3) s = .next t ∧
      (∀ a, u.mem.byteAt a = t.mem.byteAt a) ∧ u.i = s.i ∧ u.getV 0 ≠ s.getV 0 := by
  refine ⟨{ withV [(0, 7), (3, 9)] with i := 0xFFC }, after (.ldMemVx 3) { withV [(0, 7), (3, 9)] with i := 0xFFC },
    (after (.ldMemVx 3) { withV [(0, 7), (3, 9)] with i := 0xFFC }).setV 0 0, by decide +kernel, by decide +kernel, rfl,
    fun _ => rfl, rfl, by decide +kernel⟩

theorem witness_NextFetchSeesTheStore :
    let both : State := { at_ 0xFFE (withV [(0, 0x12), (1, 0x0A)]) with i := 0xFFE }
    let high : State := { at_ 0x300 (withV [(1, 0x0A)]) with i := 0x2FF }
    let low : State := { at_ 0x2FF (withV [(0, 0x12)]) with i := 0x300 }
    effAddr both (1 : RegIx).val ≤ 0xFFF ∧ both.pc.toNat ≤ 0xFFE ∧ both.pc.toNat = effAddr both (0 : RegIx).val ∧
      both.pc.toNat + 1 = effAddr both (1 : RegIx).val ∧
      high.pc.toNat = effAddr high (1 : RegIx).val ∧ ¬ StoresTo (.ldMemVx 1) high (high.pc.toNat + 1) ∧
      low.pc.toNat + 1 = effAddr low (0 : RegIx).val ∧ ¬ StoresTo (.ldMemVx 1) low low.pc.toNat := by
  simp only [StoresTo]; decide +kernel

theorem witness_NextFetchSeesTheStore_digits :
    let first : State := { at_ 0xFFD (withV [(0, 157)]) with i := 0xFFD }
    let last : State := { at_ 0xFFE (withV [(0, 157)]) with i := 0xFFD }
    let high : State := { at_ 0x302 (withV [(0, 157)]) with i := 0x300 }
    let low : State := { at_ 0x2FF (withV [(0, 157)]) with i := 0x300 }
    effAddr first 2 ≤ 0xFFF ∧ first.pc.toNat ≤ 0xFFE ∧ first.pc.toNat = effAddr first 0 ∧
      effAddr last 2 ≤ 0xFFF ∧ last.pc.toNat ≤ 0xFFE ∧ last.pc.toNat + 1 = effAddr last 2 ∧
      high.pc.toNat = effAddr high 2 ∧ ¬ StoresTo (.ldB 0) high (high.pc.toNat + 1) ∧
      low.pc.toNat + 1 = effAddr low 0 ∧ ¬ StoresTo (.ldB 0) low low.pc.toNat := by
  simp only [StoresTo]; decide +kernel

theorem witness_ClearScreen :
    63 < 64 ∧ 31 < 32 := by decide

theorem witness_DrawSprite :
    (0 : Fin 16) = 0 ∧ effAddr { State.reset with i := 0xFF1 } ((15 : Fin 16).val - 1) ≤ 0xFFF ∧
    ((15 : Fin 16) ≠ 0 ∧ 0xFFF < effAddr { State.reset with i := 0xFF2 } ((15 : Fin 16).val - 1)) := by decide

/-- The sprite 0xFF at column 63 covers (63, 0) and (0, 0) and not (7, 0) (W5). -/
theorem witness_DrawSprite_covers :
    let s : State := { poke (withV [(0, 63)]) 0x300 [0xFF] with i := 0x300 }
    SpriteCovers s 0 1 1 63 0 ∧ SpriteCovers s 0 1 1 0 0 ∧ ¬ SpriteCovers s 0 1 1 63 1 ∧ fbCell s.fb 63 0 = false ∧
      fbCell (light s [(0, 0)]).fb 0 0 = true := by
  refine ⟨⟨0, by decide, 0, by decide, by decide +kernel, by decide +kernel, by decide +kernel⟩,
    ⟨0, by decide, 1, by decide, by decide +kernel, by decide +kernel, by decide +kernel⟩, ?_, by decide +kernel,
    by decide +kernel⟩
  rintro ⟨row, hr, col, hc, _, _, hy⟩
  obtain rfl : row = 0 := by omega
  exact absurd hy (by decide +kernel)

theorem witness_DrawingTwiceRestoresTheScreen :
    ∃ s t u : State, ((1 : Fin 16) = 0 ∨ effAddr s ((1 : Fin 16).val - 1) ≤ 0xFFF) ∧ exec (.drw 0 1 1) s = .next t ∧
      u.fb = t.fb ∧ u.i = s.i ∧ (∀ a, u.mem.byteAt a = s.mem.byteAt a) ∧ u.getV 0 = s.getV 0 ∧ u.getV 1 = s.getV 1 ∧
      u.pc ≠ s.pc := by
  refine ⟨{ poke (withV [(0, 63)]) 0xFFF [0xFF] with i := 0xFFF },
    after (.drw 0 1 1) { poke (withV [(0, 63)]) 0xFFF [0xFF] with i := 0xFFF },
    at_ 0x300 (after (.drw 0 1 1) { poke (withV [(0, 63)]) 0xFFF [0xFF] with i := 0xFFF }), .inr (by decide +kernel), rfl, rfl, rfl,
    fun _ => rfl, by decide +kernel, by decide +kernel, by decide +kernel⟩

theorem witness_KeySkips :
    ((withV [(4, 0x0F)]).getV 4).toNat = (15 : Fin 16).val ∧ (State.reset.getV 4).toNat = (0 : Fin 16).val ∧
    15 < ((withV [(4, 0x10)]).getV 4).toNat ∧ 15 < ((withV [(4, 0xFF)]).getV 4).toNat := by decide +kernel

theorem witness_InstructionsWriteOnlyTheirParts :
    let s : State := { withV [(0, 157)] with i := 0xFFD }
    (∃ t, exec (.ldB 0) s = .next t) ∧ ¬ StoresTo (.ldB 0) s 0xFFC ∧ StoresTo (.ldB 0) s 0xFFF ∧
      (∃ t, exec (.ldMemVx 1) s = .next t) ∧ ¬ StoresTo (.ldMemVx 1) s 0xFFF ∧ StoresTo (.ldMemVx 1) s 0xFFE ∧
      (∃ t, exec (.call 0x300) s = .next t) ∧ ¬ StoresTo (.call 0x300) s 0xFFD := by
  refine ⟨⟨_, rfl⟩, ?_, ?_, ⟨_, rfl⟩, ?_, ?_, ⟨_, rfl⟩, ?_⟩ <;> simp only [StoresTo] <;> decide +kernel

theorem witness_InstructionsWriteOnlyTheirRegisters :
    (∃ t, exec (.addReg 1 2) State.reset = .next t) ∧ mayWriteReg (.addReg 1 2) 2 = false ∧
    mayWriteReg (.addReg 1 2) 14 = false := ⟨⟨_, rfl⟩, by decide, by decide⟩

theorem witness_FaultsAreListedAndPrecise :
    ∃ t, exec .ret State.reset = .next t ∧ State.reset.halted = false ∧ t.halted = true := ⟨_, rfl, rfl, rfl⟩

theorem witness_StepNeverClearsTheHostsRecords :
    (∃ t, step stopped = .next t) ∧ stopped.halted = true ∧ (∃ t, step busy = .next t) ∧ busy.redraw = true ∧
    busy.lastAnomaly.isSome = true := ⟨⟨_, rfl⟩, rfl, ⟨_, rfl⟩, rfl, rfl⟩

theorem witness_HostsRecordsInfluenceNoStep :
    let s' : State := { busy with st := 9, redraw := false, anomalyCount := 5, lastAnomaly := none, fault := stopped.fault }
    Unchanged [.st, .redraw, .anomaly, .fault] busy s' ∧ (∃ t, step busy = .next t) ∧ s'.st ≠ busy.st := by
  refine ⟨?_, ⟨_, rfl⟩, by decide⟩
  constructor <;> simp

theorem witness_OnlyKeySkipsReadKeys :
    (∀ x, Instr.ldVxK 2 ≠ .skp x ∧ Instr.ldVxK 2 ≠ .sknp x) ∧ ∃ t, exec (.ldVxK 2) busy = .next t := ⟨by decide, _, rfl⟩

theorem witness_StepKeepsTheInvariant :
    busy.Inv ∧ (∃ t, step busy = .next t) ∧ stopped.Inv := ⟨busy_inv, ⟨_, rfl⟩, stopped_inv⟩

theorem witness_EveryMoveKeepsTheInvariant :
    busy.Inv ∧ stopped.Inv := ⟨busy_inv, stopped_inv⟩

theorem witness_EveryScheduleKeepsTheInvariant :
    busy.Inv ∧ stopped.Inv := ⟨busy_inv, stopped_inv⟩

theorem witness_ResetValues :
    0x050 ≤ 0x050 ∧ 0x050 ≤ 0xFFF := by decide

theorem witness_HostResetForgetsTheRun :
    80 ≤ 80 ∧ ∀ a : Fin 80, (Vector.ofFn fun k : Fin 80 => fontBytes.getD k.val 0).get a = fontBytes.getD a.val 0 := by decide +kernel

theorem witness_LoadCopiesOrRefuses :
    (List.replicate 3584 (0 : Byte)).length ≤ 3584 ∧ 3583 < (List.replicate 3584 (0 : Byte)).length ∧
    3584 < (List.replicate 3585 (0 : Byte)).length ∧ 0x1FF < 0x200 ∧
    0x200 + (List.replicate 3584 (0 : Byte)).length ≤ 0x1000 := by
  simp only [List.length_replicate]; decide

end Sys2Proof.Tests
end

section
/-! PROOFS. The fetch and the step that executes (spec/40_step_cycle.md R81, R83). -/

namespace Sys2Proof.Machine

/-- The last two lines of R80's cycle: a fetched word that decodes is executed after the advance. -/
theorem step_of_fetch_decoded {s : State} {op : Word} {i : Instr} (hrun : s.halted = false) (hwait : s.wait = none)
    (hfetch : s.fetch = some op) (hdecode : decodeWord op = .ok i) : step s = exec i s.advance := by
  simp [step, hrun, hwait, hfetch, hdecode]

/-- Settles O7: the fetched word is `wordOfBytes` of the two bytes at PC, and its two halves are those bytes. -/
theorem fetchIsBigEndian : Obligations.FetchIsBigEndian :=
  fun _ hpc => ⟨_, State.fetch_some hpc, hiByte_wordOfBytes _ _, loByte_wordOfBytes _ _⟩

/-- Settles O8: in range the fetch answers the two bytes at PC, so the step executes what they decode to on the
advanced state; PC is at most 0xFFE, so the advance does not wrap. -/
theorem stepRunsTheDecodedInstruction : Obligations.StepRunsTheDecodedInstruction :=
  fun _ _ hrun hwait hpc hdecode =>
    ⟨step_of_fetch_decoded hrun hwait (State.fetch_some hpc) hdecode, State.advance_toNat hpc⟩

end Sys2Proof.Machine
end

section
/-! PROOFS. RET, JP and CALL (spec/41_control_flow.md R100 to R102): an equation per outcome, then what each outcome
changes and leaves. -/

namespace Sys2Proof.Machine

/-! ### The operand NNN -/

/-- The zero extension of R101 and R102 keeps the number. -/
@[simp] theorem addrOperand_toNat (nnn : Addr) : (addrOperand nnn).toNat = nnn.toNat := by
  have := nnn.isLt
  simp [addrOperand]
  omega

/-! ### The meanings, an equation per outcome -/

/-- RET with an entry on the stack (R100). -/
theorem exec_ret_of_sp_succ {s : State} {k : Fin 16} (h : s.sp.val = k.val + 1) :
    exec .ret s = .next { s with pc := s.stack.get k, sp := ⟨k.val, by omega⟩ } := by
  simp [exec, execRet, State.pop_some h]

/-- RET with an empty stack (R100). -/
theorem exec_ret_of_sp_zero {s : State} (h : s.sp.val = 0) :
    exec .ret s = .next (s.raise .stackUnderflow (some 0x00EE)) := by
  simp [exec, execRet, State.pop_none h, encode]

/-- JP (R101). -/
theorem exec_jp (nnn : Addr) (s : State) : exec (.jp nnn) s = .next { s with pc := addrOperand nnn } := rfl

/-- CALL with a free slot (R102). -/
theorem exec_call_of_sp_lt (nnn : Addr) {s : State} (h : s.sp.val < 16) :
    exec (.call nnn) s = .next { s with
      stack := s.stack.set s.sp.val s.pc h, sp := ⟨s.sp.val + 1, by omega⟩, pc := addrOperand nnn } := by
  simp [exec, execCall, State.push_some s.pc h]

/-- CALL with a full stack (R102); the opcode recorded is 2NNN as a number. -/
theorem exec_call_of_sp_full (nnn : Addr) {s : State} (h : s.sp.val = 16) :
    exec (.call nnn) s = .next (s.raise .stackOverflow (some (BitVec.ofNat 16 (0x2000 + nnn.toNat)))) := by
  have hword : encode (.call nnn) = BitVec.ofNat 16 (0x2000 + nnn.toNat) := wordNNN_eq 0x2 nnn
  simp [exec, execCall, State.push_none s.pc h, hword]

/-! ### The obligations -/

/-- Settles O14: with an entry, RET writes PC and SP alone, so the popped slot is kept; without one it raises. -/
theorem retPopsOrUnderflows : Obligations.RetPopsOrUnderflows := by
  constructor
  · intro s k hsp
    exact ⟨_, exec_ret_of_sp_succ hsp, rfl, rfl, by constructor <;> simp⟩
  · intro s hsp
    exact ⟨_, exec_ret_of_sp_zero (congrArg Fin.val hsp), s.raise_taken _ _⟩

/-- Settles O15: JP writes PC alone. -/
theorem jumpSetsPc : Obligations.JumpSetsPc :=
  fun nnn s => ⟨_, exec_jp nnn s, addrOperand_toNat nnn, by constructor <;> simp⟩

/-- Settles O16: with a free slot, CALL writes that slot of the stack, SP and PC; with a full stack it raises. -/
theorem callPushesOrOverflows : Obligations.CallPushesOrOverflows := by
  constructor
  · intro nnn s k hsp
    refine ⟨_, exec_call_of_sp_lt nnn (hsp ▸ k.isLt), ?pushed, ?kept, congrArg (· + 1) hsp, addrOperand_toNat nnn,
      by constructor <;> simp⟩
    case pushed => simp [hsp, Vector.get_eq_getElem]
    case kept =>
      intro j hj
      have hval : k.val ≠ j.val := Fin.val_ne_of_ne hj.symm
      simp [hsp, Vector.get_eq_getElem, Vector.getElem_set_ne, hval]
  · intro nnn s hsp
    exact ⟨_, exec_call_of_sp_full nnn hsp, s.raise_taken _ _⟩

end Sys2Proof.Machine
end

section
/-! PROOFS. The compare-and-skip instructions (spec/42_skip.md R110 to R113): the conditional skip once, then a use of it
per comparison. -/

namespace Sys2Proof.Machine

/-! ### The conditional skip (R87) -/

@[simp] theorem State.skipIf_pc (s : State) (c : Bool) : (s.skipIf c).pc = if c then s.pc + 2 else s.pc := by
  rw [State.skipIf_eq]

/-- The frame of the family: a conditional skip writes PC alone. -/
theorem State.skipIf_unchanged (s : State) (c : Bool) : Unchanged [.pc] s (s.skipIf c) := by
  rw [State.skipIf_eq]
  constructor <;> simp

/-! ### The meanings, an equation per instruction -/

/-- SE with a byte (R110). -/
theorem exec_seByte (x : RegIx) (nn : Byte) (s : State) :
    exec (.seByte x nn) s = .next (s.skipIf (s.getV x == nn)) := rfl

/-- SNE with a byte (R111). -/
theorem exec_sneByte (x : RegIx) (nn : Byte) (s : State) :
    exec (.sneByte x nn) s = .next (s.skipIf (s.getV x != nn)) := rfl

/-- SE with a register (R112). -/
theorem exec_seReg (x y : RegIx) (s : State) :
    exec (.seReg x y) s = .next (s.skipIf (s.getV x == s.getV y)) := rfl

/-- SNE with a register (R113). -/
theorem exec_sneReg (x y : RegIx) (s : State) :
    exec (.sneReg x y) s = .next (s.skipIf (s.getV x != s.getV y)) := rfl

/-! ### The two comparisons -/

/-- Skipping when two bytes are equal: PC moves exactly then. -/
theorem State.skipIf_beq_pc (s : State) (a b : Byte) :
    (s.skipIf (a == b)).pc = if a = b then s.pc + 2 else s.pc := by
  simp

/-- Skipping when two bytes differ: PC stays exactly when they are equal. -/
theorem State.skipIf_bne_pc (s : State) (a b : Byte) :
    (s.skipIf (a != b)).pc = if a = b then s.pc else s.pc + 2 := by
  by_cases h : a = b <;> simp [h]

/-! ### The obligations -/

/-- Settles O20: both compares with a byte are conditional skips, whose PC and frame are known. -/
theorem skipOnByte : Obligations.SkipOnByte :=
  fun x nn s =>
    ⟨⟨_, exec_seByte x nn s, s.skipIf_beq_pc _ _, s.skipIf_unchanged _⟩,
      ⟨_, exec_sneByte x nn s, s.skipIf_bne_pc _ _, s.skipIf_unchanged _⟩⟩

/-- Settles O21: both compares of two registers are conditional skips, whose PC and frame are known. -/
theorem skipOnRegisters : Obligations.SkipOnRegisters :=
  fun x y s =>
    ⟨⟨_, exec_seReg x y s, s.skipIf_beq_pc _ _, s.skipIf_unchanged _⟩,
      ⟨_, exec_sneReg x y s, s.skipIf_bne_pc _ _, s.skipIf_unchanged _⟩⟩

end Sys2Proof.Machine
end

section
/-! PROOFS. The register loads, arithmetic and logic (spec/43_register_alu.md R121 to R131): what the two ways of writing
a result change and leave, what the flags are as numbers, then a use of both per instruction. -/

namespace Sys2Proof.Machine

/-! ### The one write of R121 to R126 -/

theorem State.getV_setV_same (s : State) (x : RegIx) (b : Byte) : (s.setV x b).getV x = b := by simp

/-- VF is among the other registers, so a write of `V[x]` alone writes no flag. -/
theorem State.setV_otherRegsUnchanged (s : State) (x : RegIx) (b : Byte) : OtherRegsUnchanged x s (s.setV x b) :=
  fun r hr => by simp [hr]

theorem State.setV_unchanged (s : State) (x : RegIx) (b : Byte) : Unchanged [.v] s (s.setV x b) := by
  constructor <;> simp

/-! ### The two writes of R127 to R131 (R120) -/

/-- The result is written last, so `V[x]` holds it with x = F too. -/
theorem State.getV_setFlagThenV_same (s : State) (x : RegIx) (c : Bool) (b : Byte) :
    (s.setFlagThenV x c b).getV x = b := by simp

theorem State.getV_setFlagThenV_vf (s : State) {x : RegIx} (c : Bool) (b : Byte) (hx : x ≠ vf) :
    (s.setFlagThenV x c b).getV vf = flagByte c := by simp [hx.symm]

theorem State.getV_setFlagThenV_other (s : State) {x : RegIx} (c : Bool) (b : Byte) (r : RegIx) (hx : r ≠ x)
    (hf : r ≠ vf) : (s.setFlagThenV x c b).getV r = s.getV r := by simp [hx, hf]

theorem State.setFlagThenV_unchanged (s : State) (x : RegIx) (c : Bool) (b : Byte) :
    Unchanged [.v] s (s.setFlagThenV x c b) := by
  constructor <;> simp

/-! ### The flags as numbers (R133) -/

theorem flagByte_decide (p : Prop) [Decidable p] : flagByte (decide p) = if p then 1 else 0 := by
  simp [flagByte]

theorem flagByte_carryOut (a b : Byte) : flagByte (carryOut a b) = if a.toNat + b.toNat > 255 then 1 else 0 :=
  flagByte_decide _

theorem flagByte_noBorrow (a b : Byte) : flagByte (noBorrow a b) = if a.toNat ≥ b.toNat then 1 else 0 :=
  flagByte_decide _

theorem flagByte_toNat (c : Bool) : (flagByte c).toNat = c.toNat := by
  cases c <;> rfl

/-- The bit a right shift moves out is the remainder of the halving. -/
theorem flagByte_lowBit_toNat (a : Byte) : (flagByte (lowBit a)).toNat = a.toNat % 2 := by
  rw [flagByte_toNat, lowBit, BitVec.getLsbD, Nat.toNat_testBit]
  simp

/-- The bit a left shift moves out is the quotient by 128, at most 1 in a byte. -/
theorem flagByte_highBit_toNat (a : Byte) : (flagByte (highBit a)).toNat = a.toNat / 128 := by
  have := a.isLt
  rw [flagByte_toNat, highBit, BitVec.getLsbD, Nat.toNat_testBit]
  omega

/-! ### The results as numbers (R133) -/

/-- The difference of two bytes is the integers' difference modulo 256, a borrow included. -/
theorem byte_sub_toNat (a b : Byte) : ((a - b).toNat : Int) = ((a.toNat : Int) - (b.toNat : Int)) % 256 := by
  have := b.isLt
  rw [BitVec.toNat_sub]
  omega

theorem byte_shiftRight_one_toNat (a : Byte) : (a >>> 1).toNat = a.toNat / 2 := by
  rw [BitVec.toNat_ushiftRight, Nat.shiftRight_eq_div_pow, Nat.pow_one]

theorem byte_shiftLeft_one_toNat (a : Byte) : (a <<< 1).toNat = 2 * a.toNat % 256 := by
  rw [BitVec.toNat_shiftLeft, Nat.shiftLeft_eq, Nat.pow_one, Nat.mul_comm]

/-- The two writes of a subtraction, whichever operand is the register written (R128, R130). -/
theorem State.setFlagThenV_sub (s : State) (x : RegIx) (a b : Byte) :
    let t := s.setFlagThenV x (noBorrow a b) (a - b)
    ((t.getV x).toNat : Int) = ((a.toNat : Int) - (b.toNat : Int)) % 256 ∧
    (x ≠ vf → t.getV vf = if a.toNat ≥ b.toNat then 1 else 0) ∧
    (∀ r : RegIx, r ≠ x → r ≠ vf → t.getV r = s.getV r) ∧ Unchanged [.v] s t := by
  refine ⟨?difference, fun hx => ?noBorrow, s.getV_setFlagThenV_other _ _, s.setFlagThenV_unchanged x _ _⟩
  case difference => rw [State.getV_setFlagThenV_same, byte_sub_toNat]
  case noBorrow => rw [State.getV_setFlagThenV_vf _ _ _ hx, flagByte_noBorrow]

/-! ### The meanings, an equation per instruction -/

/-- LD with a byte (R121). -/
theorem exec_ldByte (x : RegIx) (nn : Byte) (s : State) : exec (.ldByte x nn) s = .next (s.setV x nn) := rfl

/-- ADD with a byte (R122). -/
theorem exec_addByte (x : RegIx) (nn : Byte) (s : State) :
    exec (.addByte x nn) s = .next (s.setV x (s.getV x + nn)) := rfl

/-- LD with a register (R123). -/
theorem exec_ldReg (x y : RegIx) (s : State) : exec (.ldReg x y) s = .next (s.setV x (s.getV y)) := rfl

/-- OR (R124). -/
theorem exec_orReg (x y : RegIx) (s : State) :
    exec (.orReg x y) s = .next (s.setV x (s.getV x ||| s.getV y)) := rfl

/-- AND (R125). -/
theorem exec_andReg (x y : RegIx) (s : State) :
    exec (.andReg x y) s = .next (s.setV x (s.getV x &&& s.getV y)) := rfl

/-- XOR (R126). -/
theorem exec_xorReg (x y : RegIx) (s : State) :
    exec (.xorReg x y) s = .next (s.setV x (s.getV x ^^^ s.getV y)) := rfl

/-- ADD with a register (R127). -/
theorem exec_addReg (x y : RegIx) (s : State) : exec (.addReg x y) s =
    .next (s.setFlagThenV x (carryOut (s.getV x) (s.getV y)) (s.getV x + s.getV y)) := rfl

/-- SUB (R128). -/
theorem exec_subReg (x y : RegIx) (s : State) : exec (.subReg x y) s =
    .next (s.setFlagThenV x (noBorrow (s.getV x) (s.getV y)) (s.getV x - s.getV y)) := rfl

/-- SHR (R129): Y is in the opcode and not in the result. -/
theorem exec_shr (x y : RegIx) (s : State) : exec (.shr x y) s =
    .next (s.setFlagThenV x (lowBit (s.getV x)) (s.getV x >>> 1)) := rfl

/-- SUBN (R130). -/
theorem exec_subnReg (x y : RegIx) (s : State) : exec (.subnReg x y) s =
    .next (s.setFlagThenV x (noBorrow (s.getV y) (s.getV x)) (s.getV y - s.getV x)) := rfl

/-- SHL (R131): Y is in the opcode and not in the result. -/
theorem exec_shl (x y : RegIx) (s : State) : exec (.shl x y) s =
    .next (s.setFlagThenV x (highBit (s.getV x)) (s.getV x <<< 1)) := rfl

/-! ### The obligations -/

/-- Settles O22: LD writes NN to `V[X]` alone. -/
theorem loadByteIntoRegister : Obligations.LoadByteIntoRegister :=
  fun x nn s => ⟨_, exec_ldByte x nn s, s.getV_setV_same x _, s.setV_otherRegsUnchanged x _, s.setV_unchanged x _⟩

/-- Settles O23: ADD writes the sum of bytes, which is the sum of numbers modulo 256, to `V[X]` alone. -/
theorem addByteWrapsWithoutFlag : Obligations.AddByteWrapsWithoutFlag := by
  intro x nn s
  refine ⟨_, exec_addByte x nn s, ?_, s.setV_otherRegsUnchanged x _, s.setV_unchanged x _⟩
  rw [State.getV_setV_same, BitVec.toNat_add]

/-- Settles O24: LD writes `V[Y]` to `V[X]` alone. -/
theorem copyRegister : Obligations.CopyRegister :=
  fun x y s => ⟨_, exec_ldReg x y s, s.getV_setV_same x _, s.setV_otherRegsUnchanged x _, s.setV_unchanged x _⟩

/-- Settles O25: each operation writes to `V[X]` alone a byte whose every bit is the operation on the operands' bits. -/
theorem bitwiseOperations : Obligations.BitwiseOperations := by
  intro x y s
  refine ⟨⟨_, exec_orReg x y s, fun j _ => ?or, s.setV_otherRegsUnchanged x _, s.setV_unchanged x _⟩,
    ⟨_, exec_andReg x y s, fun j _ => ?and, s.setV_otherRegsUnchanged x _, s.setV_unchanged x _⟩,
    ⟨_, exec_xorReg x y s, fun j _ => ?xor, s.setV_otherRegsUnchanged x _, s.setV_unchanged x _⟩⟩
  case or => rw [State.getV_setV_same, BitVec.getLsbD_or]
  case and => rw [State.getV_setV_same, BitVec.getLsbD_and]
  case xor => rw [State.getV_setV_same, BitVec.getLsbD_xor]

/-- Settles O26: the two writes are the carry and the sum modulo 256. -/
theorem addRegistersWithCarry : Obligations.AddRegistersWithCarry := by
  intro x y s
  refine ⟨_, exec_addReg x y s, ?sum, fun hx => ?carry, s.getV_setFlagThenV_other _ _, s.setFlagThenV_unchanged x _ _⟩
  case sum => rw [State.getV_setFlagThenV_same, BitVec.toNat_add]
  case carry => rw [State.getV_setFlagThenV_vf _ _ _ hx, flagByte_carryOut]

/-- Settles O27: the two writes are those of a subtraction. -/
theorem subtractRegistersWithNoBorrow : Obligations.SubtractRegistersWithNoBorrow :=
  fun x y s => ⟨_, exec_subReg x y s, s.setFlagThenV_sub x _ _⟩

/-- Settles O28: the two writes are the remainder and the quotient of the old `V[X]` by 2. -/
theorem shiftRightByOne : Obligations.ShiftRightByOne := by
  intro x y s
  refine ⟨_, exec_shr x y s, ?half, fun hx => ?bitOut, s.getV_setFlagThenV_other _ _, s.setFlagThenV_unchanged x _ _⟩
  case half => rw [State.getV_setFlagThenV_same, byte_shiftRight_one_toNat]
  case bitOut => rw [State.getV_setFlagThenV_vf _ _ _ hx, flagByte_lowBit_toNat]

/-- Settles O29: the two writes are those of SUB with the operands exchanged. -/
theorem reverseSubtractWithNoBorrow : Obligations.ReverseSubtractWithNoBorrow :=
  fun x y s => ⟨_, exec_subnReg x y s, s.setFlagThenV_sub x _ _⟩

/-- Settles O30: the two writes are the bit above the double's low 8 bits and those bits. -/
theorem shiftLeftByOne : Obligations.ShiftLeftByOne := by
  intro x y s
  refine ⟨_, exec_shl x y s, ?double, fun hx => ?bitOut, s.getV_setFlagThenV_other _ _, s.setFlagThenV_unchanged x _ _⟩
  case double => rw [State.getV_setFlagThenV_same, byte_shiftLeft_one_toNat]
  case bitOut => rw [State.getV_setFlagThenV_vf _ _ _ hx, flagByte_highBit_toNat]

end Sys2Proof.Machine
end

section
/-! PROOFS. The index register and the transfers through it (spec/44_index_memory.md R140, R142 to R144): the range check
against the highest address, what storing bytes at I writes and leaves, an equation per outcome, then the obligations. -/

namespace Sys2Proof.Machine

/-! ### The range check against the highest address I + n (R43, R145) -/

theorem storeBytes_of_effAddr_le {s : State} {bs : List Byte} {n : Nat} (hlen : bs.length = n + 1)
    (h : effAddr s n ≤ 0xFFF) :
    storeBytes s.mem (effAddr s 0) bs = some (s.mem.putBytes (effAddr s 0) bs) := by
  rw [effAddr_add] at h
  exact storeBytes_some (.inr (by omega))

theorem storeBytes_of_effAddr_gt {s : State} {bs : List Byte} {n : Nat} (hlen : bs.length = n + 1)
    (h : 0xFFF < effAddr s n) : storeBytes s.mem (effAddr s 0) bs = none := by
  rw [effAddr_add] at h
  exact storeBytes_none (by omega) (by omega)

theorem loadBytes_of_effAddr_le {s : State} {n : Nat} (h : effAddr s n ≤ 0xFFF) :
    loadBytes s.mem (effAddr s 0) (n + 1) =
      some ((List.range (n + 1)).map fun k => s.mem.byteAt (effAddr s 0 + k)) := by
  rw [effAddr_add] at h
  exact loadBytes_some (.inr (by omega))

theorem loadBytes_of_effAddr_gt {s : State} {n : Nat} (h : 0xFFF < effAddr s n) :
    loadBytes s.mem (effAddr s 0) (n + 1) = none := by
  rw [effAddr_add] at h
  exact loadBytes_none (by omega) (by omega)

/-! ### The one write of R142 and R143: bytes at I -/

/-- The state with bytes put at I, I + 1, and so on: what FX33 and FX55 answer in range (`exec_ldB_of_le`,
`exec_ldMemVx_of_le`). -/
def State.storeAtI (s : State) (bs : List Byte) : State := { s with mem := s.mem.putBytes (effAddr s 0) bs }

theorem State.storeAtI_unchanged (s : State) (bs : List Byte) : Unchanged [.mem] s (s.storeAtI bs) := by
  constructor <;> simp [State.storeAtI]

theorem State.byteAt_storeAtI_inside {s : State} {bs : List Byte} {n k : Nat} (hlen : bs.length = n + 1)
    (h : effAddr s n ≤ 0xFFF) (hk : k ≤ n) :
    (s.storeAtI bs).mem.byteAt (effAddr s k) = bs[k]'(by omega) := by
  rw [effAddr_add] at h ⊢
  exact Memory.byteAt_putBytes_inside _ _ _ _ (by omega) (by omega)

theorem State.byteAt_storeAtI_outside {s : State} {bs : List Byte} {n a : Nat} (hlen : bs.length = n + 1)
    (ha : a < effAddr s 0 ∨ effAddr s n < a) : (s.storeAtI bs).mem.byteAt a = s.mem.byteAt a := by
  rw [effAddr_add s n] at ha
  exact Memory.byteAt_putBytes_outside _ _ _ _ (by omega)

/-! ### The decimal digits, one by one (R142) -/

theorem decimalDigits_getElem_toNat (b : Byte) :
    (decimalDigits b)[0].toNat = b.toNat / 100 ∧ (decimalDigits b)[1].toNat = b.toNat / 10 % 10 ∧
      (decimalDigits b)[2].toNat = b.toNat % 10 := by
  simpa [decimalDigits] using decimalDigits_toNat b

/-! ### The meanings, an equation per outcome -/

/-- LD I (R140). -/
theorem exec_ldI (nnn : Addr) (s : State) : exec (.ldI nnn) s = .next { s with i := addrOperand nnn } := rfl

/-- LD B with I + 2 in range (R142). -/
theorem exec_ldB_of_le (x : RegIx) {s : State} (h : effAddr s 2 ≤ 0xFFF) :
    exec (.ldB x) s = .next (s.storeAtI (decimalDigits (s.getV x))) := by
  simp [exec, execLdB, storeBytes_of_effAddr_le (decimalDigits_length _) h, State.storeAtI]

/-- LD B with I + 2 out of range (R142); the opcode recorded is FX33 as a number. -/
theorem exec_ldB_of_gt (x : RegIx) {s : State} (h : 0xFFF < effAddr s 2) :
    exec (.ldB x) s =
      .next (s.raise .memoryAccessOutOfBounds (some (BitVec.ofNat 16 (0xF033 + 256 * x.val)))) := by
  have hword : encode (.ldB x) = BitVec.ofNat 16 (0xF033 + 256 * x.val) := wordXNN_eq 0xF x 0x33
  simp [exec, execLdB, storeBytes_of_effAddr_gt (decimalDigits_length _) h, hword]

/-- LD [I] with I + X in range (R143). -/
theorem exec_ldMemVx_of_le {x : RegIx} {s : State} (h : effAddr s x.val ≤ 0xFFF) :
    exec (.ldMemVx x) s = .next (s.storeAtI (regsUpTo s x)) := by
  simp [exec, execLdMemVx, storeBytes_of_effAddr_le (regsUpTo_length s x) h, State.storeAtI]

/-- LD [I] with I + X out of range (R143); the opcode recorded is FX55 as a number. -/
theorem exec_ldMemVx_of_gt {x : RegIx} {s : State} (h : 0xFFF < effAddr s x.val) :
    exec (.ldMemVx x) s =
      .next (s.raise .memoryAccessOutOfBounds (some (BitVec.ofNat 16 (0xF055 + 256 * x.val)))) := by
  have hword : encode (.ldMemVx x) = BitVec.ofNat 16 (0xF055 + 256 * x.val) := wordXNN_eq 0xF x 0x55
  simp [exec, execLdMemVx, storeBytes_of_effAddr_gt (regsUpTo_length s x) h, hword]

/-- LD Vx, [I] with I + X in range (R144). -/
theorem exec_ldVxMem_of_le {x : RegIx} {s : State} (h : effAddr s x.val ≤ 0xFFF) :
    exec (.ldVxMem x) s =
      .next (s.setRegs ((List.range (x.val + 1)).map fun k => s.mem.byteAt (effAddr s 0 + k))) := by
  simp [exec, execLdVxMem, loadBytes_of_effAddr_le h]

/-- LD Vx, [I] with I + X out of range (R144); the opcode recorded is FX65 as a number. -/
theorem exec_ldVxMem_of_gt {x : RegIx} {s : State} (h : 0xFFF < effAddr s x.val) :
    exec (.ldVxMem x) s =
      .next (s.raise .memoryAccessOutOfBounds (some (BitVec.ofNat 16 (0xF065 + 256 * x.val)))) := by
  have hword : encode (.ldVxMem x) = BitVec.ofNat 16 (0xF065 + 256 * x.val) := wordXNN_eq 0xF x 0x65
  simp [exec, execLdVxMem, loadBytes_of_effAddr_gt h, hword]

/-! ### The obligations -/

/-- Settles O32: LD I writes I alone. -/
theorem loadIndex : Obligations.LoadIndex :=
  fun nnn s => ⟨_, exec_ldI nnn s, addrOperand_toNat nnn, by constructor <;> simp⟩

/-- Settles O34: in range FX33 puts the three digits at I, each read back where it was put; out of range it raises. -/
theorem storeDecimalDigits : Obligations.StoreDecimalDigits := by
  intro x s
  constructor
  · intro hle
    obtain ⟨hundreds, tens, ones⟩ := decimalDigits_getElem_toNat (s.getV x)
    have readsBack (d : Nat) (hd : d ≤ 2) :
        (s.storeAtI (decimalDigits (s.getV x))).mem.byteAt (effAddr s d) =
          (decimalDigits (s.getV x))[d]'(Nat.lt_succ_of_le hd) :=
      State.byteAt_storeAtI_inside (decimalDigits_length _) hle hd
    refine ⟨_, exec_ldB_of_le x hle, ?hundreds, ?tens, ?ones,
      fun _ => State.byteAt_storeAtI_outside (decimalDigits_length _), s.storeAtI_unchanged _⟩
    case hundreds => rw [readsBack 0 (by omega), hundreds]
    case tens => rw [readsBack 1 (by omega), tens]
    case ones => rw [readsBack 2 (by omega), ones]
  · intro hgt
    exact ⟨_, exec_ldB_of_gt x hgt, s.raise_taken _ _⟩

/-- Settles O35: in range FX55 puts the registers up to `V[X]` at I, each read back where it was put; out of range it
raises. -/
theorem storeRegisters : Obligations.StoreRegisters := by
  intro x s
  constructor
  · intro hle
    refine ⟨_, exec_ldMemVx_of_le hle, fun k hk => ?stored,
      fun _ => State.byteAt_storeAtI_outside (regsUpTo_length s x), s.storeAtI_unchanged _⟩
    rw [State.byteAt_storeAtI_inside (regsUpTo_length s x) hle hk, regsUpTo_getElem]
  · intro hgt
    exact ⟨_, exec_ldMemVx_of_gt hgt, s.raise_taken _ _⟩

/-- Settles O36: in range FX65 sets the registers up to `V[X]` to the bytes loaded at I and no other; out of range it
raises. -/
theorem loadRegisters : Obligations.LoadRegisters := by
  intro x s
  constructor
  · intro hle
    refine ⟨_, exec_ldVxMem_of_le hle, fun k hk => ?loaded, fun k hk => ?kept, by constructor <;> simp⟩
    case loaded => rw [State.getV_setRegs_loaded, if_pos (Nat.lt_succ_of_le hk), ← effAddr_add]
    case kept => rw [State.getV_setRegs_loaded, if_neg (Nat.not_lt_of_le hk)]
  · intro hgt
    exact ⟨_, exec_ldVxMem_of_gt hgt, s.raise_taken _ _⟩

end Sys2Proof.Machine
end

section
/-! PROOFS. Clearing the screen (spec/45_display.md R150): the equation of CLS, then the obligation. -/

namespace Sys2Proof.Machine

/-- CLS (R150). -/
theorem exec_cls (s : State) : exec .cls s = .next { s with fb := fbClear, redraw := true } := rfl

/-- Settles O39: CLS writes the framebuffer whose every cell is 0 and the redraw signal, and nothing else. -/
theorem clearScreen : Obligations.ClearScreen :=
  fun s => ⟨_, exec_cls s, fun x y _ _ => fbCell_fbClear x y, rfl, by constructor <;> simp⟩

end Sys2Proof.Machine
end

section
/-! PROOFS. Decoder, encoder and opcode map (spec/30_encoding.md R61 to R66): the decoder undoes the encoder and the
encoder undoes the decoder, and a word that a row of the map matches is the word of an instruction of that row. -/

namespace Sys2Proof

/-! ### Decoding an encoded instruction -/

theorem decodeWord_encode (i : Instr) : decodeWord (encode i) = .ok i := by
  cases i with
  | cls | ret => rfl
  | jp nnn | call nnn | ldI nnn | jpV0 nnn => simp [encode, decodeWord]
  | seByte x nn | sneByte x nn | ldByte x nn | addByte x nn | rnd x nn => simp [encode, decodeWord]
  | seReg x y | sneReg x y | drw x y n => simp [encode, decodeWord]
  | ldReg x y | orReg x y | andReg x y | xorReg x y | addReg x y | subReg x y | shr x y | subnReg x y | shl x y =>
    simp [encode, decodeWord, decode8]
  | skp x | sknp x => simp [encode, decodeWord, decodeE]
  | ldVxDT x | ldVxK x | ldDTVx x | ldSTVx x | addI x | ldB x | ldMemVx x | ldVxMem x =>
    simp [encode, decodeWord, decodeF]

/-- Settles O1: the decoder finds in the encoded word the fields the encoder put there, and the two bytes of a word put
together are the word. -/
theorem decodeOfEncodeIsTheInstruction : Obligations.DecodeOfEncodeIsTheInstruction := by
  intro i rest
  refine ⟨decodeWord_encode i, ?_⟩
  simp [encodeBytes, decodeBytes, decodeWord_encode, Except.map]

/-! ### Encoding a decoded word -/

variable {t n : Nibble} {nn : Byte} {w : Word} {i : Instr}

theorem wordNNN_of_fields (ht : opT w = t) : wordNNN t (opNNN w) = w := ht ▸ wordNNN_fields w

theorem wordXNN_of_fields (ht : opT w = t) (hnn : opNN w = nn) : wordXNN t (opX w) nn = w :=
  ht ▸ hnn ▸ wordXNN_fields w

theorem wordXYN_of_fields (ht : opT w = t) (hn : opN w = n) : wordXYN t (opX w) (opY w) n = w :=
  ht ▸ hn ▸ wordXYN_fields w

/-- The nine instructions of T = 8. -/
theorem encode_of_decode8 (ht : opT w = 0x8#4) (h : decode8 w = .ok i) : encode i = w := by
  unfold decode8 at h
  split at h <;> cases h <;> exact wordXYN_of_fields ht (by assumption)

/-- The two instructions of T = E. -/
theorem encode_of_decodeE (ht : opT w = 0xE#4) (h : decodeE w = .ok i) : encode i = w := by
  unfold decodeE at h
  split at h <;> cases h <;> exact wordXNN_of_fields ht (by assumption)

/-- The eight instructions of T = F. -/
theorem encode_of_decodeF (ht : opT w = 0xF#4) (h : decodeF w = .ok i) : encode i = w := by
  unfold decodeF at h
  split at h <;> cases h <;> exact wordXNN_of_fields ht (by assumption)

/-- The last family: a nibble that is none of the others is F. -/
theorem nibble_eq_15 (t : Nibble) (h0 : t ≠ 0x0) (h1 : t ≠ 0x1) (h2 : t ≠ 0x2) (h3 : t ≠ 0x3) (h4 : t ≠ 0x4)
    (h5 : t ≠ 0x5) (h6 : t ≠ 0x6) (h7 : t ≠ 0x7) (h8 : t ≠ 0x8) (h9 : t ≠ 0x9) (hA : t ≠ 0xA) (hB : t ≠ 0xB)
    (hC : t ≠ 0xC) (hD : t ≠ 0xD) (hE : t ≠ 0xE) : t = 0xF := by
  bv_omega

theorem encode_of_decodeWord (h : decodeWord w = .ok i) : encode i = w := by
  unfold decodeWord at h
  split at h
  case h_1 =>
    split at h
    · cases h; exact Eq.symm ‹_›
    · split at h
      · cases h; exact Eq.symm ‹_›
      · cases h
  case h_2 | h_3 | h_11 | h_12 => cases h; exact wordNNN_of_fields ‹_›
  case h_4 | h_5 | h_7 | h_8 | h_13 => cases h; exact wordXNN_of_fields ‹_› rfl
  case h_6 | h_10 =>
    split at h
    · cases h; exact wordXYN_of_fields ‹_› ‹_›
    · cases h
  case h_9 ht => exact encode_of_decode8 ht h
  case h_14 => cases h; exact wordXYN_of_fields ‹_› rfl
  case h_15 ht => exact encode_of_decodeE ht h
  case h_16 => exact encode_of_decodeF (by apply nibble_eq_15 <;> assumption) h

/-- Settles O2: each family of the decoder keeps every field of the word. -/
theorem encodeOfDecodeIsTheWord : Obligations.EncodeOfDecodeIsTheWord := fun _ _ => encode_of_decodeWord

theorem decodeWord_eq_ok_iff : decodeWord w = .ok i ↔ encode i = w :=
  ⟨encode_of_decodeWord, fun h => h ▸ decodeWord_encode i⟩

/-! ### The opcode map -/

/-- Every instruction's row is that of a sample of the map. -/
theorem row_mem_opcodeRows (i : Instr) : i.row ∈ opcodeRows := by
  cases i <;> simp [opcodeRows, opcodeSamples, Instr.row]

/-- One case of `Laws.OwnRow` per constructor: the word of an instruction is one its own row accepts. -/
theorem row_accepts_encode (i : Instr) : encode i &&& i.row.mask = i.row.value := by
  suffices h : Laws.OwnRow.Statement i by simpa [Laws.OwnRow.Statement, OpcodeRow.accepts] using h
  cases i with
  | cls => exact Laws.OwnRow.cls
  | ret => exact Laws.OwnRow.ret
  | jp => exact Laws.OwnRow.jp _
  | call => exact Laws.OwnRow.call _
  | seByte => exact Laws.OwnRow.seByte _ _
  | sneByte => exact Laws.OwnRow.sneByte _ _
  | seReg => exact Laws.OwnRow.seReg _ _
  | ldByte => exact Laws.OwnRow.ldByte _ _
  | addByte => exact Laws.OwnRow.addByte _ _
  | ldReg => exact Laws.OwnRow.ldReg _ _
  | orReg => exact Laws.OwnRow.orReg _ _
  | andReg => exact Laws.OwnRow.andReg _ _
  | xorReg => exact Laws.OwnRow.xorReg _ _
  | addReg => exact Laws.OwnRow.addReg _ _
  | subReg => exact Laws.OwnRow.subReg _ _
  | shr => exact Laws.OwnRow.shr _ _
  | subnReg => exact Laws.OwnRow.subnReg _ _
  | shl => exact Laws.OwnRow.shl _ _
  | sneReg => exact Laws.OwnRow.sneReg _ _
  | ldI => exact Laws.OwnRow.ldI _
  | jpV0 => exact Laws.OwnRow.jpV0 _
  | rnd => exact Laws.OwnRow.rnd _ _
  | drw => exact Laws.OwnRow.drw _ _ _
  | skp => exact Laws.OwnRow.skp _
  | sknp => exact Laws.OwnRow.sknp _
  | ldVxDT => exact Laws.OwnRow.ldVxDT _
  | ldVxK => exact Laws.OwnRow.ldVxK _
  | ldDTVx => exact Laws.OwnRow.ldDTVx _
  | ldSTVx => exact Laws.OwnRow.ldSTVx _
  | addI => exact Laws.OwnRow.addI _
  | ldB => exact Laws.OwnRow.ldB _
  | ldMemVx => exact Laws.OwnRow.ldMemVx _
  | ldVxMem => exact Laws.OwnRow.ldVxMem _

/-! The three masks, read backwards: a word they match has the fixed digits of the match. -/

theorem wordNNN_of_mask (v : Word) (h : w &&& 0xF000#16 = v) (ht : opT v = t) : wordNNN t (opNNN w) = w := by
  rw [and_maskNNN] at h
  exact wordNNN_of_fields (by rw [← ht, ← h, opT_wordNNN])

theorem wordXNN_of_maskNNN (v : Word) (h : w &&& 0xF000#16 = v) (ht : opT v = t) :
    wordXNN t (opX w) (opNN w) = w := by
  rw [and_maskNNN] at h
  exact wordXNN_of_fields (by rw [← ht, ← h, opT_wordNNN]) rfl

theorem wordXYN_of_maskNNN (v : Word) (h : w &&& 0xF000#16 = v) (ht : opT v = t) :
    wordXYN t (opX w) (opY w) (opN w) = w := by
  rw [and_maskNNN] at h
  exact wordXYN_of_fields (by rw [← ht, ← h, opT_wordNNN]) rfl

theorem wordXNN_of_mask (v : Word) (h : w &&& 0xF0FF#16 = v) (ht : opT v = t) (hnn : opNN v = nn) :
    wordXNN t (opX w) nn = w := by
  rw [and_maskXNN] at h
  exact wordXNN_of_fields (by rw [← ht, ← h, opT_wordXNN]) (by rw [← hnn, ← h, opNN_wordXNN])

theorem wordXYN_of_mask (v : Word) (h : w &&& 0xF00F#16 = v) (ht : opT v = t) (hn : opN v = n) :
    wordXYN t (opX w) (opY w) n = w := by
  rw [and_maskXYN] at h
  exact wordXYN_of_fields (by rw [← ht, ← h, opT_wordXYN]) (by rw [← hn, ← h, opN_wordXYN])

/-- A word that the row of an instruction matches is the word of an instruction of the same row. -/
theorem exists_encode_of_row_accepts (i : Instr) (h : w &&& i.row.mask = i.row.value) :
    ∃ j, j.row = i.row ∧ encode j = w := by
  cases i with
  | cls => exact ⟨.cls, rfl, h.symm.trans (and_maskAll w)⟩
  | ret => exact ⟨.ret, rfl, h.symm.trans (and_maskAll w)⟩
  | jp => exact ⟨.jp (opNNN w), rfl, wordNNN_of_mask 0x1000 h rfl⟩
  | call => exact ⟨.call (opNNN w), rfl, wordNNN_of_mask 0x2000 h rfl⟩
  | seByte => exact ⟨.seByte (opX w) (opNN w), rfl, wordXNN_of_maskNNN 0x3000 h rfl⟩
  | sneByte => exact ⟨.sneByte (opX w) (opNN w), rfl, wordXNN_of_maskNNN 0x4000 h rfl⟩
  | seReg => exact ⟨.seReg (opX w) (opY w), rfl, wordXYN_of_mask 0x5000 h rfl rfl⟩
  | ldByte => exact ⟨.ldByte (opX w) (opNN w), rfl, wordXNN_of_maskNNN 0x6000 h rfl⟩
  | addByte => exact ⟨.addByte (opX w) (opNN w), rfl, wordXNN_of_maskNNN 0x7000 h rfl⟩
  | ldReg => exact ⟨.ldReg (opX w) (opY w), rfl, wordXYN_of_mask 0x8000 h rfl rfl⟩
  | orReg => exact ⟨.orReg (opX w) (opY w), rfl, wordXYN_of_mask 0x8001 h rfl rfl⟩
  | andReg => exact ⟨.andReg (opX w) (opY w), rfl, wordXYN_of_mask 0x8002 h rfl rfl⟩
  | xorReg => exact ⟨.xorReg (opX w) (opY w), rfl, wordXYN_of_mask 0x8003 h rfl rfl⟩
  | addReg => exact ⟨.addReg (opX w) (opY w), rfl, wordXYN_of_mask 0x8004 h rfl rfl⟩
  | subReg => exact ⟨.subReg (opX w) (opY w), rfl, wordXYN_of_mask 0x8005 h rfl rfl⟩
  | shr => exact ⟨.shr (opX w) (opY w), rfl, wordXYN_of_mask 0x8006 h rfl rfl⟩
  | subnReg => exact ⟨.subnReg (opX w) (opY w), rfl, wordXYN_of_mask 0x8007 h rfl rfl⟩
  | shl => exact ⟨.shl (opX w) (opY w), rfl, wordXYN_of_mask 0x800E h rfl rfl⟩
  | sneReg => exact ⟨.sneReg (opX w) (opY w), rfl, wordXYN_of_mask 0x9000 h rfl rfl⟩
  | ldI => exact ⟨.ldI (opNNN w), rfl, wordNNN_of_mask 0xA000 h rfl⟩
  | jpV0 => exact ⟨.jpV0 (opNNN w), rfl, wordNNN_of_mask 0xB000 h rfl⟩
  | rnd => exact ⟨.rnd (opX w) (opNN w), rfl, wordXNN_of_maskNNN 0xC000 h rfl⟩
  | drw => exact ⟨.drw (opX w) (opY w) (opN w).toFin, rfl, wordXYN_of_maskNNN 0xD000 h rfl⟩
  | skp => exact ⟨.skp (opX w), rfl, wordXNN_of_mask 0xE09E h rfl rfl⟩
  | sknp => exact ⟨.sknp (opX w), rfl, wordXNN_of_mask 0xE0A1 h rfl rfl⟩
  | ldVxDT => exact ⟨.ldVxDT (opX w), rfl, wordXNN_of_mask 0xF007 h rfl rfl⟩
  | ldVxK => exact ⟨.ldVxK (opX w), rfl, wordXNN_of_mask 0xF00A h rfl rfl⟩
  | ldDTVx => exact ⟨.ldDTVx (opX w), rfl, wordXNN_of_mask 0xF015 h rfl rfl⟩
  | ldSTVx => exact ⟨.ldSTVx (opX w), rfl, wordXNN_of_mask 0xF018 h rfl rfl⟩
  | addI => exact ⟨.addI (opX w), rfl, wordXNN_of_mask 0xF01E h rfl rfl⟩
  | ldB => exact ⟨.ldB (opX w), rfl, wordXNN_of_mask 0xF033 h rfl rfl⟩
  | ldMemVx => exact ⟨.ldMemVx (opX w), rfl, wordXNN_of_mask 0xF055 h rfl rfl⟩
  | ldVxMem => exact ⟨.ldVxMem (opX w), rfl, wordXNN_of_mask 0xF065 h rfl rfl⟩

/-- Settles O3: the decoder answers the instruction whose word it is, and the words of the instructions are
those the rows match. -/
theorem decoderAcceptsExactlyTheMap : Obligations.DecoderAcceptsExactlyTheMap := by
  simp only [Obligations.DecoderAcceptsExactlyTheMap, decodeWord_eq_ok_iff]
  refine ⟨fun w => ⟨?_, ?_⟩, ?_⟩
  · rintro ⟨i, rfl⟩
    exact ⟨i.row, row_mem_opcodeRows i, row_accepts_encode i⟩
  · rintro ⟨r, hr, hw⟩
    obtain ⟨i, -, rfl⟩ := List.mem_map.1 hr
    obtain ⟨j, -, hj⟩ := exists_encode_of_row_accepts i hw
    exact ⟨j, hj⟩
  · rintro w i rfl
    exact ⟨row_mem_opcodeRows i, row_accepts_encode i⟩

/-- Settles O4: two rows that match one word are the rows of two instructions with that word, which are the same. -/
theorem noWordMatchesTwoRows : Obligations.NoWordMatchesTwoRows := by
  refine ⟨rfl, fun w r q hr hq hwr hwq => ?_⟩
  obtain ⟨i, -, rfl⟩ := List.mem_map.1 hr
  obtain ⟨k, -, rfl⟩ := List.mem_map.1 hq
  obtain ⟨i', hi', hwi⟩ := exists_encode_of_row_accepts i hwr
  obtain ⟨k', hk', hwk⟩ := exists_encode_of_row_accepts k hwq
  have hsame : i' = k' := by
    have h := decodeWord_encode i'
    rw [hwi, ← hwk, decodeWord_encode] at h
    exact (Except.ok.inj h).symm
  rw [← hi', ← hk', hsame]

/-! ### The unrecognised words (R66) -/

theorem decode8_eq_error_iff :
    decode8 w = .error (.unrecognizedOpcode w) ↔ opN w ∈ [0x8, 0x9, 0xA, 0xB, 0xC, 0xD, 0xF] := by
  unfold decode8
  split
  case h_10 => simp only [List.mem_cons, List.not_mem_nil, or_false, true_iff, imp_false] at *; bv_omega
  all_goals simp [*]

theorem decodeE_eq_error_iff : decodeE w = .error (.unrecognizedOpcode w) ↔ opNN w ∉ [0x9E, 0xA1] := by
  unfold decodeE
  split <;> simp_all

theorem decodeF_eq_error_iff : decodeF w = .error (.unrecognizedOpcode w) ↔
    opNN w ∉ [0x07, 0x0A, 0x15, 0x18, 0x1E, 0x33, 0x55, 0x65] := by
  unfold decodeF
  split <;> simp_all

/-- Settles O5: one group of R66 for each family of the decoder that rejects. -/
theorem unrecognisedWordsAreThoseOfTheTable : Obligations.UnrecognisedWordsAreThoseOfTheTable := by
  intro w
  unfold decodeWord
  split
  case h_1 ht =>
    by_cases hcls : w = 0x00E0#16
    · subst hcls; decide
    · by_cases hret : w = 0x00EE#16
      · subst hret; decide
      · simp [ht, hcls, hret]
  case h_6 ht | h_10 ht => simp [ht]
  case h_9 ht => simp [ht, decode8_eq_error_iff]
  case h_15 ht => simp [ht, decodeE_eq_error_iff]
  case h_16 =>
    have ht : opT w = 0xF := by apply nibble_eq_15 <;> assumption
    simp [ht, decodeF_eq_error_iff]
  case h_2 ht | h_3 ht | h_4 ht | h_5 ht | h_7 ht | h_8 ht | h_11 ht | h_12 ht | h_13 ht | h_14 ht => simp [ht]

/-- Settles O6: the decoder runs on each word. -/
theorem sampleWordsDecode : Obligations.SampleWordsDecode := by
  unfold Obligations.SampleWordsDecode
  decide

end Sys2Proof
end

section
/-! PROOFS. The step's other outcomes (spec/40_step_cycle.md R80, R82, R86, R89) and the key poll
(spec/46_timer_keypad.md R164): an equation per line of R80's cycle, then the obligations. -/

namespace Sys2Proof.Machine

variable {s : State}

/-! ### The lines of R80, an equation per outcome -/

theorem step_of_halted (hhalted : s.halted = true) : step s = .next s := by
  simp [step, hhalted]

theorem step_of_waiting {x : RegIx} (hrun : s.halted = false) (hwait : s.wait = some x) :
    step s = .next (keyPoll x s) := by
  simp [step, hrun, hwait]

theorem step_of_pc_gt (hrun : s.halted = false) (hwait : s.wait = none) (hpc : 0xFFE < s.pc.toNat) :
    step s = .next (s.raise .programCounterOutOfBounds none) := by
  simp [step, hrun, hwait, State.fetch_none hpc]

theorem step_of_fetch_rejected {op : Word} {e : DecodeReject} (hrun : s.halted = false) (hwait : s.wait = none)
    (hfetch : s.fetch = some op) (hdecode : decodeWord op = .error e) :
    step s = .next (s.advance.reportUnrecognized s.pc op) := by
  simp [step, hrun, hwait, hfetch, hdecode]

theorem step_next (s : State) : ∃ t, step s = .next t := by
  unfold step
  split
  · exact ⟨_, rfl⟩
  · split
    · exact ⟨_, rfl⟩
    · split
      · exact ⟨_, rfl⟩
      · split
        · exact exec_next _ _
        · exact ⟨_, rfl⟩

/-! ### The key poll -/

theorem keyPoll_of_no_key (x : RegIx) (hup : ∀ k, s.keyDown k = false) : keyPoll x s = s := by
  rcases keyPoll_cases x s with ⟨-, h⟩ | ⟨k, d, hdown, -⟩
  · exact h
  · simp [hup] at hdown

theorem keyPoll_of_key_down (x : RegIx) {k : Fin 16} (hk : s.keyDown k = true) :
    ∃ j d, s.keyDown j = true ∧ keyPoll x s = { s.takeKey x j with draws := d } := by
  rcases keyPoll_cases x s with ⟨hup, -⟩ | h
  · simp [hup] at hk
  · exact h

/-- Taking a key writes `V[x]` and `wait`, and with the free choice the draw counter. -/
theorem takeKey_unchanged (s : State) (x : RegIx) (k : Fin 16) (d : Nat) :
    Unchanged [.v, .wait, .draws] s { s.takeKey x k with draws := d } := by
  constructor <;> simp

/-! ### The obligations -/

/-- Settles O9: the report is made on the advanced state, with the address before the advance. -/
theorem unrecognisedWordIsReportedAndSkipped : Obligations.UnrecognisedWordIsReportedAndSkipped :=
  fun _ _ hrun hwait hpc hdecode =>
    ⟨_, step_of_fetch_rejected hrun hwait (State.fetch_some hpc) hdecode, rfl, rfl, rfl, by constructor <;> simp⟩

/-- Settles O10: the fetch fails, and the step raises before the advance. -/
theorem fetchOutOfRangeFaults : Obligations.FetchOutOfRangeFaults :=
  fun s hrun hwait hpc => ⟨_, step_of_pc_gt hrun hwait hpc, s.raise_taken _ _⟩

/-- Settles O11: the halted test comes first. -/
theorem haltedStepChangesNothing : Obligations.HaltedStepChangesNothing := fun _ => step_of_halted

/-- Settles O12: each line of R80 answers a next state, the last by `exec_next`. -/
theorem everyStateHasANextState : Obligations.EveryStateHasANextState := step_next

/-- Settles O13: a waiting step is the key poll, which keeps the state or takes a key that is down. -/
theorem keyPollWaitsOrTakesAPressedKey : Obligations.KeyPollWaitsOrTakesAPressedKey := by
  constructor
  · intro s x hrun hwait hup
    rw [step_of_waiting hrun hwait, keyPoll_of_no_key x hup]
  · intro s x k hrun hwait hk
    obtain ⟨j, d, hj, hpoll⟩ := keyPoll_of_key_down x hk
    refine ⟨_, j, hpoll ▸ step_of_waiting hrun hwait, hj, ?key, fun r hr => ?others, rfl, takeKey_unchanged s x j d⟩
    case key => exact (s.getV_takeKey x j x).trans (if_pos rfl)
    case others => exact (s.getV_takeKey x j r).trans (if_neg hr)

end Sys2Proof.Machine
end

section
/-! PROOFS. Returning from a subroutine, the jump through V0 and the jump to itself (spec/41_control_flow.md R100 to
R103, spec/70_reset_and_hazards.md R211). -/

namespace Sys2Proof.Machine

/-- JP V0 (R103). -/
theorem exec_jpV0 (nnn : Addr) (s : State) :
    exec (.jpV0 nnn) s = .next { s with pc := addrOperand nnn + (s.getV 0).setWidth 16 } := rfl

/-- The sum of R103 fits 16 bits. -/
theorem addrOperand_add_byte_toNat (nnn : Addr) (b : Byte) :
    (addrOperand nnn + b.setWidth 16).toNat = nnn.toNat + b.toNat := by
  have := nnn.isLt
  have := b.isLt
  rw [BitVec.toNat_add, addrOperand_toNat, BitVec.toNat_setWidth]
  omega

/-- Settles O17: JP V0 writes PC alone, and its sum does not wrap. -/
theorem jumpV0AddsV0 : Obligations.JumpV0AddsV0 :=
  fun nnn s => ⟨_, exec_jpV0 nnn s, addrOperand_add_byte_toNat nnn _, by constructor <;> simp⟩

/-- Settles O18: the slot CALL wrote is the top of the stack RET finds. -/
theorem callThenRetReturns : Obligations.CallThenRetReturns := by
  intro nnn s t u hsp hcall hstack husp
  rw [exec_call_of_sp_lt nnn hsp] at hcall
  cases hcall
  refine ⟨_, exec_ret_of_sp_succ (s := u) (k := ⟨s.sp.val, hsp⟩) (congrArg Fin.val husp), ?pc, rfl,
    by constructor <;> simp⟩
  case pc => simp [hstack, Vector.get_eq_getElem]

/-- Settles O19: the word at PC is that of JP to PC, so the jump undoes the advance. -/
theorem selfJumpIsAFixedPoint : Obligations.SelfJumpIsAFixedPoint := by
  intro nnn s hrun hwait hpc hle hword
  have henc : wordOfBytes (s.mem.byteAt s.pc.toNat) (s.mem.byteAt (s.pc.toNat + 1)) = encode (.jp nnn) := by
    apply BitVec.eq_of_toNat_eq
    rw [wordOfBytes_toNat, hword]
    exact (wordNNN_toNat 0x1 nnn).symm
  have hback : addrOperand nnn = s.pc := BitVec.eq_of_toNat_eq (by rw [addrOperand_toNat, hpc])
  rw [step_of_fetch_decoded hrun hwait (State.fetch_some (hpc ▸ hle)) (henc ▸ decodeWord_encode (.jp nnn)), exec_jp,
    hback]
  rfl

end Sys2Proof.Machine
end

section
/-! PROOFS. The random byte, the sum into I, the timer transfers, the key wait and the key skips
(spec/43_register_alu.md R132, spec/44_index_memory.md R141, spec/46_timer_keypad.md R160 to R167). -/

namespace Sys2Proof.Machine

/-! ### The meanings, an equation per outcome -/

/-- RND (R132). -/
theorem exec_rnd (x : RegIx) (nn : Byte) (s : State) : exec (.rnd x nn) s =
    .next { s.setV x (Config.randByte s.draws &&& nn) with draws := s.draws + 1 } := rfl

/-- ADD I (R141). -/
theorem exec_addI (x : RegIx) (s : State) :
    exec (.addI x) s = .next { s with i := s.i + (s.getV x).setWidth 16 } := rfl

/-- LD Vx, DT (R160). -/
theorem exec_ldVxDT (x : RegIx) (s : State) : exec (.ldVxDT x) s = .next (s.setV x s.dt) := rfl

/-- LD DT, Vx (R161). -/
theorem exec_ldDTVx (x : RegIx) (s : State) : exec (.ldDTVx x) s = .next { s with dt := s.getV x } := rfl

/-- LD ST, Vx (R162). -/
theorem exec_ldSTVx (x : RegIx) (s : State) : exec (.ldSTVx x) s = .next { s with st := s.getV x } := rfl

/-- LD Vx, K (R163). -/
theorem exec_ldVxK (x : RegIx) (s : State) : exec (.ldVxK x) s = .next { s with wait := some x } := rfl

/-- SKP with a key number (R165). -/
theorem exec_skp_of_key {x : RegIx} {k : Fin 16} {s : State} (hk : (s.getV x).toNat = k.val) :
    exec (.skp x) s = .next (s.skipIf (s.keyDown k)) := by
  simp [exec, execSkp, keyOperand_some hk]

/-- SKNP with a key number (R166). -/
theorem exec_sknp_of_key {x : RegIx} {k : Fin 16} {s : State} (hk : (s.getV x).toNat = k.val) :
    exec (.sknp x) s = .next (s.skipIf (!s.keyDown k)) := by
  simp [exec, execSknp, keyOperand_some hk]

/-- SKP with no key number (R167); the opcode recorded is EX9E as a number. -/
theorem exec_skp_of_gt {x : RegIx} {s : State} (h : 15 < (s.getV x).toNat) :
    exec (.skp x) s = .next (s.raise .keyIndexOutOfRange (some (BitVec.ofNat 16 (0xE09E + 256 * x.val)))) := by
  have hword : encode (.skp x) = BitVec.ofNat 16 (0xE09E + 256 * x.val) := wordXNN_eq 0xE x 0x9E
  simp [exec, execSkp, keyOperand_none h, hword]

/-- SKNP with no key number (R167); the opcode recorded is EXA1 as a number. -/
theorem exec_sknp_of_gt {x : RegIx} {s : State} (h : 15 < (s.getV x).toNat) :
    exec (.sknp x) s = .next (s.raise .keyIndexOutOfRange (some (BitVec.ofNat 16 (0xE0A1 + 256 * x.val)))) := by
  have hword : encode (.sknp x) = BitVec.ofNat 16 (0xE0A1 + 256 * x.val) := wordXNN_eq 0xE x 0xA1
  simp [exec, execSknp, keyOperand_none h, hword]

/-- Skipping on a flag's negation: PC stays exactly when the flag is set. -/
theorem State.skipIf_not_pc (s : State) (c : Bool) : (s.skipIf (!c)).pc = if c then s.pc else s.pc + 2 := by
  cases c <;> simp

/-! ### The obligations -/

/-- Settles O31: a bit outside the mask is 0 in the conjunction, whatever the free byte is. -/
theorem randomByteIsMasked : Obligations.RandomByteIsMasked := by
  intro x nn s
  have hx := s.getV_setV_same x (Config.randByte s.draws &&& nn)
  refine ⟨_, exec_rnd x nn s, hx, fun j hj => ?masked, rfl, s.setV_otherRegsUnchanged x _, by constructor <;> simp⟩
  case masked =>
    calc ((s.setV x (Config.randByte s.draws &&& nn)).getV x).getLsbD j
        = (Config.randByte s.draws &&& nn).getLsbD j := by rw [hx]
      _ = false := by rw [BitVec.getLsbD_and, hj, Bool.and_false]

/-- Settles O33: the sum of 16-bit words is the sum of numbers modulo 65536. -/
theorem addToIndex : Obligations.AddToIndex := by
  intro x s
  refine ⟨_, exec_addI x s, ?sum, by constructor <;> simp⟩
  case sum =>
    have := (s.getV x).isLt
    rw [BitVec.toNat_add, BitVec.toNat_setWidth]
    omega

/-- Settles O42: each transfer writes its one target. -/
theorem timerTransfers : Obligations.TimerTransfers :=
  fun x s =>
    ⟨⟨_, exec_ldVxDT x s, s.getV_setV_same x _, s.setV_otherRegsUnchanged x _, s.setV_unchanged x _⟩,
      ⟨_, exec_ldDTVx x s, rfl, by constructor <;> simp⟩,
      ⟨_, exec_ldSTVx x s, rfl, by constructor <;> simp⟩⟩

/-- Settles O43: FX0A writes `wait` alone. -/
theorem keyWaitBegins : Obligations.KeyWaitBegins :=
  fun x s => ⟨_, exec_ldVxK x s, rfl, by constructor <;> simp⟩

/-- Settles O44: with a key number both are conditional skips, and with none both raise. -/
theorem keySkips : Obligations.KeySkips := by
  constructor
  · intro x k s hk
    exact ⟨⟨_, exec_skp_of_key hk, s.skipIf_pc _, s.skipIf_unchanged _⟩,
      ⟨_, exec_sknp_of_key hk, s.skipIf_not_pc _, s.skipIf_unchanged _⟩⟩
  · intro x s hx
    exact ⟨⟨_, exec_skp_of_gt hx, s.raise_taken _ _⟩, ⟨_, exec_sknp_of_gt hx, s.raise_taken _ _⟩⟩

end Sys2Proof.Machine
end

section
/-! PROOFS. What a store at I is followed by (spec/20_memory.md R55, spec/44_index_memory.md R142 to R144): a load of
the same bytes, and the next fetch. -/

namespace Sys2Proof.Machine

/-! ### Loading what was stored -/

/-- An instruction answers one state. -/
theorem exec_next_unique {i : Instr} {s t t' : State} (h : exec i s = .next t) (h' : exec i s = .next t') : t' = t :=
  Host.Outcome.next.inj (h'.symm.trans h)

/-- The addresses of a transfer are those of I. -/
theorem effAddr_congr {s u : State} (h : u.i = s.i) (k : Nat) : effAddr u k = effAddr s k := by
  simp [effAddr, h]

/-- Settles O37: each register was put at the address it is loaded from. -/
theorem storedRegistersLoadBack : Obligations.StoredRegistersLoadBack := by
  intro x s t u hle hstore hmem hi
  obtain ⟨t', hstore', hstored, -, -⟩ := (storeRegisters x s).1 hle
  obtain rfl := exec_next_unique hstore hstore'
  obtain ⟨r, hload, hloaded, hkept, -⟩ := (loadRegisters x u).1 (effAddr_congr hi x ▸ hle)
  refine ⟨r, hload, fun k hk => ?_, hkept⟩
  calc r.getV k = u.mem.byteAt (effAddr u k) := hloaded k hk
    _ = t'.mem.byteAt (effAddr s k) := by rw [hmem, effAddr_congr hi]
    _ = s.getV k := hstored k hk

/-! ### The next fetch -/

/-- After a write of memory alone the fetch at an unchanged PC takes the bytes memory then holds (R55). -/
theorem fetch_after_store {s t : State} (h : Unchanged [.mem] s t) (hpc : s.pc.toNat ≤ 0xFFE) :
    ∃ op, t.fetch = some op ∧ hiByte op = t.mem.byteAt s.pc.toNat ∧ loByte op = t.mem.byteAt (s.pc.toNat + 1) := by
  have hsame : t.pc = s.pc := h.pc (by simp)
  rw [← hsame] at hpc ⊢
  exact ⟨_, State.fetch_some hpc, hiByte_wordOfBytes _ _, loByte_wordOfBytes _ _⟩

theorem not_storesTo_ldMemVx {x : RegIx} {s : State} {a : Nat} (h : ¬ StoresTo (.ldMemVx x) s a) :
    a < effAddr s 0 ∨ effAddr s x.val < a := by
  simp only [StoresTo] at h
  omega

theorem not_storesTo_ldB {x : RegIx} {s : State} {a : Nat} (h : ¬ StoresTo (.ldB x) s a) :
    a < effAddr s 0 ∨ effAddr s 2 < a := by
  simp only [StoresTo] at h
  omega

/-- The digit with weight `10 ^ (2 - d)` stands at I + d. -/
theorem decimal_digit_of_weights {s t : State} {b : Byte}
    (hundreds : (t.mem.byteAt (effAddr s 0)).toNat = b.toNat / 100)
    (tens : (t.mem.byteAt (effAddr s 1)).toNat = b.toNat / 10 % 10)
    (ones : (t.mem.byteAt (effAddr s 2)).toNat = b.toNat % 10) {d : Nat} (hd : d ≤ 2) :
    (t.mem.byteAt (effAddr s d)).toNat = b.toNat / 10 ^ (2 - d) % 10 := by
  have := b.isLt
  interval_cases d
  · rw [hundreds]; omega
  · rw [tens]; simp
  · rw [ones]; simp

/-- Settles O38: FX55 and FX33 write memory alone, so the next fetch takes at each address the byte stored there, or the
byte that was there. -/
theorem nextFetchSeesTheStore : Obligations.NextFetchSeesTheStore := by
  constructor
  · intro x s hle hpc
    obtain ⟨t, hexec, stored, kept, hframe⟩ := (storeRegisters x s).1 hle
    obtain ⟨op, hfetch, hhi, hlo⟩ := fetch_after_store hframe hpc
    refine ⟨t, op, hexec, hfetch, fun k hk ha => ?_, fun k hk ha => ?_, fun hns => ?_, fun hns => ?_⟩
    · rw [hhi, ha, stored k hk]
    · rw [hlo, ha, stored k hk]
    · rw [hhi, kept _ (not_storesTo_ldMemVx hns)]
    · rw [hlo, kept _ (not_storesTo_ldMemVx hns)]
  · intro x s hle hpc
    obtain ⟨t, hexec, hundreds, tens, ones, kept, hframe⟩ := (storeDecimalDigits x s).1 hle
    obtain ⟨op, hfetch, hhi, hlo⟩ := fetch_after_store hframe hpc
    refine ⟨t, op, hexec, hfetch, fun d hd ha => ?_, fun d hd ha => ?_, fun hns => ?_, fun hns => ?_⟩
    · rw [hhi, ha, decimal_digit_of_weights hundreds tens ones hd]
    · rw [hlo, ha, decimal_digit_of_weights hundreds tens ones hd]
    · rw [hhi, kept _ (not_storesTo_ldB hns)]
    · rw [hlo, kept _ (not_storesTo_ldB hns)]

end Sys2Proof.Machine
end

section
/-! PROOFS. Drawing a sprite (spec/45_display.md R151): an equation per outcome, what the framebuffer and the collision
flag are after it, and that a second drawing undoes the first. -/

namespace Sys2Proof.Machine

/-! ### The meaning, an equation per outcome -/

/-- The n bytes at I: the sprite DXYN draws. -/
def spriteBytes (s : State) (n : Nat) : List Byte := (List.range n).map fun k => s.mem.byteAt (effAddr s 0 + k)

/-- The framebuffer and the collision flag DXYN leaves in range (`exec_drw_of_le`). -/
def drawnSprite (s : State) (x y : RegIx) (n : Nat) : Framebuffer × Bool :=
  drawRows (spriteBytes s n) (spriteOrigin s x y).1 (spriteOrigin s x y).2 0 (s.fb, false)

/-- DRW in range (R151). -/
theorem exec_drw_of_le (x y : RegIx) {n : Fin 16} {s : State} (h : n = 0 ∨ effAddr s (n.val - 1) ≤ 0xFFF) :
    exec (.drw x y n) s = .next { s.setV vf (flagByte (drawnSprite s x y n.val).2) with
      fb := (drawnSprite s x y n.val).1, redraw := true } := by
  have hrange : n.val = 0 ∨ effAddr s 0 + (n.val - 1) ≤ 0xFFF := by
    rw [← effAddr_add]
    exact h.imp_left (congrArg Fin.val)
  simp [exec, execDrw, loadBytes_some hrange, drawnSprite, spriteBytes]

/-- DRW out of range (R151); the opcode recorded is DXYN as a number. -/
theorem exec_drw_of_gt (x y : RegIx) {n : Fin 16} {s : State} (h0 : n ≠ 0) (h : 0xFFF < effAddr s (n.val - 1)) :
    exec (.drw x y n) s = .next (s.raise .memoryAccessOutOfBounds
      (some (BitVec.ofNat 16 (0xD000 + 256 * x.val + 16 * y.val + n.val)))) := by
  have hword : encode (.drw x y n) = BitVec.ofNat 16 (0xD000 + 256 * x.val + 16 * y.val + n.val) :=
    wordXYN_eq 0xD (BitVec.ofFin n) x y
  rw [effAddr_add] at h
  simp [exec, execDrw, loadBytes_none (Fin.val_ne_of_ne h0) h, hword]

/-! ### What is drawn -/

/-- The rows of `drawnSprite` are the sprite's: what `drawRows_spec` says of cells and flag, said of `SpriteCovers`. -/
theorem drawnSprite_spec (s : State) (x y : RegIx) (n : Fin 16) :
    (∀ px py, px < 64 → py < 32 →
      (SpriteCovers s x y n.val px py → fbCell (drawnSprite s x y n.val).1 px py = !fbCell s.fb px py) ∧
      (¬ SpriteCovers s x y n.val px py → fbCell (drawnSprite s x y n.val).1 px py = fbCell s.fb px py)) ∧
    ((drawnSprite s x y n.val).2 = true ↔
      ∃ px py, px < 64 ∧ py < 32 ∧ SpriteCovers s x y n.val px py ∧ fbCell s.fb px py = true) := by
  have hlen : (spriteBytes s n.val).length ≤ 32 := by simp [spriteBytes]; omega
  simpa [rowsCover_iff_spriteCovers, spriteBytes, drawnSprite] using
    drawRows_spec (spriteBytes s n.val) (spriteOrigin s x y).1 (spriteOrigin s x y).2 0 hlen (s.fb, false)

/-- Settles O40: in range DXYN leaves `drawnSprite`'s framebuffer and flag; out of range it raises. -/
theorem drawSprite : Obligations.DrawSprite := by
  intro x y n s
  constructor
  · intro hle
    obtain ⟨hcells, hflag⟩ := drawnSprite_spec s x y n
    have hvf := s.getV_setV_same vf (flagByte (drawnSprite s x y n.val).2)
    refine ⟨_, exec_drw_of_le x y hle, hcells, fun hcollision => ?_, fun hnone => ?_, s.setV_otherRegsUnchanged vf _,
      rfl, by constructor <;> simp⟩
    · rw [hflag.2 hcollision] at hvf ⊢
      exact hvf
    · rw [Bool.eq_false_iff.2 (mt hflag.1 hnone)] at hvf ⊢
      exact hvf
  · rintro ⟨h0, hgt⟩
    exact ⟨_, exec_drw_of_gt x y h0 hgt, s.raise_taken _ _⟩

/-! ### Drawing twice -/

/-- What a sprite covers depends on its bytes and its origin alone. -/
theorem spriteCovers_congr {s u : State} {x y : RegIx} (hi : u.i = s.i) (hmem : ∀ a, u.mem.byteAt a = s.mem.byteAt a)
    (hx : u.getV x = s.getV x) (hy : u.getV y = s.getV y) (n px py : Nat) :
    SpriteCovers u x y n px py ↔ SpriteCovers s x y n px py := by
  simp only [SpriteCovers, hmem, hx, hy, effAddr_congr hi]

/-- Settles O41: a covered cell is flipped twice and every other cell never, and a covered cell that was clear is set
when the second drawing comes to it. -/
theorem drawingTwiceRestoresTheScreen : Obligations.DrawingTwiceRestoresTheScreen := by
  intro x y n s t u hle hfirst hfb hi hmem hx hy
  have hcov := spriteCovers_congr hi hmem hx hy n.val
  obtain ⟨t', hfirst', cells, -⟩ := (drawSprite x y n s).1 hle
  obtain rfl := exec_next_unique hfirst hfirst'
  obtain ⟨r, hsecond, cells', collision, -⟩ := (drawSprite x y n u).1 (effAddr_congr hi _ ▸ hle)
  refine ⟨r, hsecond, fun px py hpx hpy => ?_, ?_⟩
  · by_cases hc : SpriteCovers s x y n.val px py
    · rw [(cells' px py hpx hpy).1 ((hcov px py).2 hc), hfb, (cells px py hpx hpy).1 hc, Bool.not_not]
    · rw [(cells' px py hpx hpy).2 (mt (hcov px py).1 hc), hfb, (cells px py hpx hpy).2 hc]
  · rintro ⟨px, py, hpx, hpy, hc, hclear⟩
    refine collision ⟨px, py, hpx, hpy, (hcov px py).2 hc, ?_⟩
    rw [hfb, (cells px py hpx hpy).1 hc, hclear, Bool.not_false]

end Sys2Proof.Machine
end

section
/-! PROOFS. Reset and the host moves (spec/10_state.md R25, spec/60_exceptions.md R185, spec/70_reset_and_hazards.md
R200 to R204). -/

namespace Sys2Proof.Machine

/-! ### The reset contents -/

theorem resetByte_of_ge {a : Nat} (h : 80 ≤ a) : resetByte a = 0 := List.getD_eq_default _ _ h

/-- Writing what an unlisted address reads as lists nothing. -/
theorem Memory.put_nil_resetByte (a : Nat) : Memory.put [] a (resetByte a) = [] := by
  simp [Memory.put, Memory.eraseCell]

/-- Writing the reset contents into unlisted memory lists nothing. -/
theorem Memory.putBytes_nil_resetBytes (a : Nat) (bs : List Byte)
    (h : ∀ k (hk : k < bs.length), bs[k] = resetByte (a + k)) : Memory.putBytes [] a bs = [] := by
  induction bs generalizing a with
  | nil => rfl
  | cons b bs ih =>
    have hb : b = resetByte a := h 0 (by simp)
    rw [Memory.putBytes, hb, Memory.put_nil_resetByte]
    refine ih (a + 1) fun k hk => ?_
    rw [Nat.add_assoc, Nat.add_comm 1 k]
    exact h (k + 1) (by simpa using hk)

theorem fontMemory_byteAt (font : Vector Byte 80) (a : Fin 80) : (fontMemory font).byteAt a.val = font.get a := by
  have h := Memory.byteAt_putBytes_inside [] 0 font.toList a.val (by simp) (by omega)
  simpa [fontMemory, Vector.get_eq_getElem] using h

theorem fontMemory_byteAt_of_ge (font : Vector Byte 80) {a : Nat} (h : 80 ≤ a) : (fontMemory font).byteAt a = 0 := by
  rw [fontMemory, Memory.byteAt_putBytes_outside _ _ _ _ (by simp [h])]
  exact resetByte_of_ge h

theorem fontMemory_default {font : Vector Byte 80} (h : ∀ a : Fin 80, font.get a = fontBytes.getD a.val 0) :
    fontMemory font = [] := by
  refine Memory.putBytes_nil_resetBytes 0 _ fun k hk => ?_
  have := h ⟨k, by simpa using hk⟩
  simpa [resetByte, Vector.get_eq_getElem] using this

/-! ### The obligations -/

/-- Settles O55: each row is the field's value in `State.reset`; the vectors are constant and no byte is listed. -/
theorem resetValues : Obligations.ResetValues := by
  refine ⟨fun r => ?regs, rfl, rfl, rfl, fun k => ?stack, rfl, rfl, fun a ha => resetByte_of_ge ha, fun x y => ?fb, rfl,
    rfl, rfl, rfl, rfl, rfl⟩
  case regs => simp [State.reset, State.getV, Vector.get_eq_getElem]
  case stack => simp [State.reset, Vector.get_eq_getElem]
  case fb => simp [State.reset, fbCell]

/-- Settles O56: the memory is FONT over unlisted memory, and every other part is `State.reset`'s. -/
theorem hostResetForgetsTheRun : Obligations.HostResetForgetsTheRun :=
  fun s font => ⟨fontMemory_byteAt font, fun _ => fontMemory_byteAt_of_ge font, rfl,
    by constructor <;> simp [State.hostReset], fontMemory_default⟩

/-- Settles O57: both timers go down as one does. -/
theorem tickDecrementsToZero : Obligations.TickDecrementsToZero :=
  fun s => ⟨tickTimer_toNat s.dt, tickTimer_toNat s.st, by constructor <;> simp⟩

/-- LOAD of an image that fits (R202). -/
theorem State.load_of_le {bytes : List Byte} (s : State) (h : bytes.length ≤ 3584) :
    s.load bytes = .next { s with mem := s.mem.putBytes 0x200 bytes } := by
  simp [State.load, Nat.not_lt.2 h]

/-- LOAD of an image that is too large (R203). -/
theorem State.load_of_gt {bytes : List Byte} (s : State) (h : 3584 < bytes.length) :
    s.load bytes = .refused .programTooLarge := by
  simp [State.load, h]

/-- Settles O58: an image that fits ends at 0xFFF, so each byte reads back where it was put. -/
theorem loadCopiesOrRefuses : Obligations.LoadCopiesOrRefuses := by
  refine fun s bytes => ⟨fun hle => ?_, s.load_of_gt⟩
  exact ⟨_, s.load_of_le hle, fun k hk => Memory.byteAt_putBytes_inside _ _ _ k hk (by omega),
    fun a ha => Memory.byteAt_putBytes_outside _ _ _ a ha, by constructor <;> simp⟩

end Sys2Proof.Machine
end

section
/-! PROOFS. What an instruction can do, said once for all of them: its effect, with what it writes, keeps and bounds, or
its one fault (spec/10_state.md R11, R13, R28, spec/60_exceptions.md R180). The rules of the whole machine follow. -/

namespace Sys2Proof.Machine

/-! ### The effect of an instruction -/

/-- Every value pushed is at most 0x1000 (R100): the clause `stackBound` of the invariant. -/
def State.StackBound (s : State) : Prop := ∀ k : Fin 16, (s.stack.get k).toNat ≤ 0x1000

/-- What holds of the state `t` that the effect of `i` leaves of `s`; `exec_cases` says that every instruction answers
such a state or raises. The bounds are for a PC that was advanced from a fetchable one. -/
structure Effect (i : Instr) (s t : State) : Prop where
  frame : Unchanged (mayWrite i) s t
  bytes : ∀ a, ¬ StoresTo i s a → t.mem.byteAt a = s.mem.byteAt a
  regs : ∀ r, mayWriteReg i r = false → t.getV r = s.getV r
  redraw : s.redraw = true → t.redraw = true
  memWf : s.mem.wf = true → t.mem.wf = true
  pcBound : s.pc.toNat ≤ 0x1000 → s.StackBound → t.pc.toNat ≤ 0x10FE
  stackBound : s.pc.toNat ≤ 0x1000 → s.StackBound → t.StackBound

variable {i : Instr} {s t : State}

/-- An effect on anything but memory, PC and stack. -/
theorem Effect.of_data (frame : Unchanged (mayWrite i) s t) (regs : ∀ r, mayWriteReg i r = false → t.getV r = s.getV r)
    (redraw : s.redraw = true → t.redraw = true) (hmem : t.mem = s.mem) (hpc : t.pc = s.pc)
    (hstack : t.stack = s.stack) : Effect i s t where
  frame := frame
  bytes _ _ := by rw [hmem]
  regs := regs
  redraw := redraw
  memWf h := hmem ▸ h
  pcBound h _ := by rw [hpc]; omega
  stackBound _ h k := hstack ▸ h k

/-- An effect on PC, SP and stack alone. -/
theorem Effect.of_jump (frame : Unchanged (mayWrite i) s t) (hv : t.v = s.v) (hredraw : t.redraw = s.redraw)
    (hmem : t.mem = s.mem) (pcBound : s.pc.toNat ≤ 0x1000 → s.StackBound → t.pc.toNat ≤ 0x10FE)
    (stackBound : s.pc.toNat ≤ 0x1000 → s.StackBound → t.StackBound) : Effect i s t where
  frame := frame
  bytes _ _ := by rw [hmem]
  regs r _ := getV_congr hv r
  redraw h := hredraw ▸ h
  memWf h := hmem ▸ h
  pcBound := pcBound
  stackBound := stackBound

theorem Effect.setV {x : RegIx} (hw : mayWrite i = [.v]) (hr : ∀ r, mayWriteReg i r = false → r ≠ x) (b : Byte) :
    Effect i s (s.setV x b) :=
  .of_data (hw ▸ s.setV_unchanged x b) (fun r h => s.setV_otherRegsUnchanged x b r (hr r h)) id rfl rfl rfl

theorem Effect.setFlagThenV {x : RegIx} (hw : mayWrite i = [.v])
    (hr : ∀ r, mayWriteReg i r = false → r ≠ x ∧ r ≠ vf) (c : Bool) (b : Byte) : Effect i s (s.setFlagThenV x c b) :=
  .of_data (hw ▸ s.setFlagThenV_unchanged x c b)
    (fun r h => s.getV_setFlagThenV_other c b r (hr r h).1 (hr r h).2) id rfl rfl rfl

theorem Effect.skipIf (hw : mayWrite i = [.pc]) (c : Bool) : Effect i s (s.skipIf c) := by
  refine .of_jump (hw ▸ s.skipIf_unchanged c) ?_ ?_ ?_ (fun hpc _ => ?_) fun _ h => ?_
  case refine_4 =>
    rw [State.skipIf_pc]
    split
    · rw [BitVec.toNat_add]; simp; omega
    · omega
  all_goals rw [State.skipIf_eq]
  exact h

theorem Effect.jump (hw : mayWrite i = [.pc]) {w : Word} (hpc : w.toNat ≤ 0x10FE) : Effect i s { s with pc := w } :=
  .of_jump (hw ▸ by constructor <;> simp) rfl rfl rfl (fun _ _ => hpc) fun _ h => h

theorem Effect.storeAtI {bs : List Byte} {n : Nat} (hw : mayWrite i = [.mem]) (hlen : bs.length = n + 1)
    (hs : ∀ a, ¬ StoresTo i s a → a < effAddr s 0 ∨ effAddr s n < a) : Effect i s (s.storeAtI bs) where
  frame := hw ▸ s.storeAtI_unchanged bs
  bytes a h := State.byteAt_storeAtI_outside hlen (hs a h)
  regs _ _ := rfl
  redraw := id
  memWf h := Memory.wf_putBytes h _ _
  pcBound h _ := Nat.le_trans h (by omega)
  stackBound _ h := h

/-! ### Effect or fault -/

/-- What `exec_cases` says of one answer. -/
def EffectOrFault (i : Instr) (s t : State) : Prop :=
  Effect i s t ∨ ∃ kind, mayRaise i = some kind ∧ t = s.raise kind (some (encode i))

/-- A checked effect, computed from what a checked operation answers, is the effect or the listed fault. -/
theorem effectOrFault_of_orRaise {α : Type} {kind : FaultKind} {o : Option α} {f : α → State}
    (hkind : mayRaise i = some kind) (heffect : ∀ a, o = some a → Effect i s (f a))
    (h : s.orRaise kind i (o.map f) = .next t) : EffectOrFault i s t := by
  rcases State.orRaise_next h with he | ⟨-, rfl⟩
  · obtain ⟨a, ha, rfl⟩ := Option.map_eq_some_iff.1 he
    exact .inl (heffect a ha)
  · exact .inr ⟨kind, hkind, rfl⟩

theorem effect_ret (p : Word × State) (hp : s.pop = some p) : Effect .ret s { p.2 with pc := p.1 } := by
  obtain ⟨k, -, rfl⟩ := State.pop_eq_some hp
  refine .of_jump (by constructor <;> simp [mayWrite]) rfl rfl rfl (fun _ h => ?_) fun _ h => h
  exact Nat.le_trans (h k) (by omega)

theorem effect_call (nnn : Addr) (u : State) (hu : s.push s.pc = some u) :
    Effect (.call nnn) s { u with pc := addrOperand nnn } := by
  obtain ⟨hsp, rfl⟩ := State.push_eq_some hu
  refine .of_jump (by constructor <;> simp [mayWrite]) rfl rfl rfl (fun _ _ => ?pc) fun hpc h k => ?stack
  case pc =>
    have := nnn.isLt
    rw [addrOperand_toNat]
    omega
  case stack =>
    simp only [Vector.get_eq_getElem, Vector.getElem_set]
    split
    · exact hpc
    · exact h k

theorem effect_drw (x y : RegIx) (n : Fin 16) (c : Bool) (fb : Framebuffer) :
    Effect (.drw x y n) s { s.setV vf (flagByte c) with fb := fb, redraw := true } :=
  .of_data (by constructor <;> simp [mayWrite])
    (fun r h => s.setV_otherRegsUnchanged vf _ r (by simpa [mayWriteReg] using h)) (fun _ => rfl) rfl rfl rfl

theorem loadBytes_eq_some {m : Memory} {a n : Nat} {bs : List Byte} (h : loadBytes m a n = some bs) :
    bs = (List.range n).map fun k => m.byteAt (a + k) := by
  unfold loadBytes at h
  split at h
  · exact (Option.some.inj h).symm
  · cases h

theorem effect_ldVxMem (x : RegIx) (bs : List Byte) (hbs : loadBytes s.mem (effAddr s 0) (x.val + 1) = some bs) :
    Effect (.ldVxMem x) s (s.setRegs bs) := by
  refine .of_data (by constructor <;> simp [mayWrite]) (fun r hr => ?_) (s.setRegs_redraw bs).trans (s.setRegs_mem bs)
    (s.setRegs_pc bs) (s.setRegs_stack bs)
  have hr : x < r := by simpa [mayWriteReg] using hr
  rw [loadBytes_eq_some hbs, State.getV_setRegs_loaded, if_neg (Nat.not_lt_of_le hr)]

theorem effect_stored {m : Memory} {bs : List Byte} {n : Nat} (hw : mayWrite i = [.mem]) (hlen : bs.length = n + 1)
    (hs : ∀ a, ¬ StoresTo i s a → a < effAddr s 0 ∨ effAddr s n < a) (hm : storeBytes s.mem (effAddr s 0) bs = some m) :
    Effect i s { s with mem := m } := by
  rw [storeBytes_eq_some hm]
  exact Effect.storeAtI hw hlen hs

/-- What an instruction can do: its effect, or the one fault listed for it with its own opcode. -/
theorem exec_cases (h : exec i s = .next t) : EffectOrFault i s t := by
  cases i with
  | cls =>
    cases h; exact .inl (.of_data (by constructor <;> simp [mayWrite]) (fun _ _ => rfl) (fun _ => rfl) rfl rfl rfl)
  | ret => exact effectOrFault_of_orRaise rfl effect_ret h
  | call nnn => exact effectOrFault_of_orRaise rfl (effect_call nnn) h
  | jp nnn =>
    cases h
    have := nnn.isLt
    exact .inl (.jump rfl (by rw [addrOperand_toNat]; omega))
  | jpV0 nnn =>
    cases h
    have := nnn.isLt
    have := (s.getV 0).isLt
    exact .inl (.jump rfl (by rw [addrOperand_add_byte_toNat]; omega))
  | seByte | sneByte | seReg | sneReg => cases h; exact .inl (.skipIf rfl _)
  | skp x | sknp x => exact effectOrFault_of_orRaise rfl (fun k _ => .skipIf rfl _) h
  | ldByte | addByte | ldReg | orReg | andReg | xorReg | ldVxDT =>
    cases h; exact .inl (.setV rfl (by simp [mayWriteReg]) _)
  | addReg | subReg | shr | subnReg | shl => cases h; exact .inl (.setFlagThenV rfl (by simp [mayWriteReg]) _ _)
  | rnd x nn =>
    cases h
    refine .inl (.of_data (by constructor <;> simp [mayWrite]) (fun r hr => ?_) id rfl rfl rfl)
    exact s.setV_otherRegsUnchanged x _ r (by simpa [mayWriteReg] using hr)
  | ldI | addI | ldVxK | ldDTVx | ldSTVx =>
    cases h; exact .inl (.of_data (by constructor <;> simp [mayWrite]) (fun _ _ => rfl) id rfl rfl rfl)
  | drw x y n => exact effectOrFault_of_orRaise rfl (fun bs _ => effect_drw x y n _ _) h
  | ldB x =>
    exact effectOrFault_of_orRaise rfl
      (fun _ => effect_stored rfl (decimalDigits_length _) fun _ => not_storesTo_ldB) h
  | ldMemVx x =>
    exact effectOrFault_of_orRaise rfl
      (fun _ => effect_stored rfl (regsUpTo_length s x) fun _ => not_storesTo_ldMemVx) h
  | ldVxMem x => exact effectOrFault_of_orRaise rfl (effect_ldVxMem x) h

/-! ### The obligations -/

/-- No effect writes the host's records or KEYS. -/
theorem not_mem_mayWrite (i : Instr) :
    .halted ∉ mayWrite i ∧ .fault ∉ mayWrite i ∧ .anomaly ∉ mayWrite i ∧ .keys ∉ mayWrite i := by
  cases i <;> simp [mayWrite]

/-- Settles O45: the effect has its frame and its bytes, and the fault is the listed one. -/
theorem instructionsWriteOnlyTheirParts : Obligations.InstructionsWriteOnlyTheirParts := by
  intro i s t h
  rcases exec_cases h with heffect | ⟨kind, hkind, rfl⟩
  · exact .inl ⟨heffect.frame, heffect.bytes⟩
  · exact .inr ⟨kind, hkind, s.raise_taken _ _⟩

/-- Settles O46: the effect writes the registers of the table, and a fault none. -/
theorem instructionsWriteOnlyTheirRegisters : Obligations.InstructionsWriteOnlyTheirRegisters := by
  intro i s t r h hr
  rcases exec_cases h with heffect | ⟨kind, -, rfl⟩
  · exact heffect.regs r hr
  · rfl

/-- Settles O47: no effect halts the machine, so what halted it is the listed fault. -/
theorem faultsAreListedAndPrecise : Obligations.FaultsAreListedAndPrecise := by
  intro i s t h hrun hhalted
  rcases exec_cases h with heffect | ⟨kind, hkind, rfl⟩
  · rw [heffect.frame.halted (not_mem_mayWrite i).1, hrun] at hhalted
    cases hhalted
  · exact ⟨kind, hkind, s.raise_taken _ _⟩

theorem exec_keeps_redraw (h : exec i s = .next t) (hr : s.redraw = true) : t.redraw = true := by
  rcases exec_cases h with heffect | ⟨kind, -, rfl⟩
  · exact heffect.redraw hr
  · exact hr

theorem exec_anomaly (h : exec i s = .next t) : t.anomalyCount = s.anomalyCount ∧ t.lastAnomaly = s.lastAnomaly := by
  rcases exec_cases h with heffect | ⟨kind, -, rfl⟩
  · exact heffect.frame.anomaly (not_mem_mayWrite i).2.2.1
  · exact ⟨rfl, rfl⟩

/-- Settles O48: of the lines of R80 only the report writes the anomaly record, no line clears redraw, and a halted step
is the identity. -/
theorem stepNeverClearsTheHostsRecords : Obligations.StepNeverClearsTheHostsRecords := by
  intro s t h
  rcases step_cases h with ⟨-, rfl⟩ | ⟨hrun, x, -, rfl⟩ | ⟨hrun, -, -, rfl⟩ |
    ⟨hrun, -, -, op, -, ⟨i, -, hexec⟩ | ⟨e, -, rfl⟩⟩
  · exact ⟨id, id, id, .inl rfl⟩
  · rcases keyPoll_cases x s with ⟨-, hpoll⟩ | ⟨k, d, -, hpoll⟩ <;> rw [hpoll] <;> exact ⟨id, id, id, .inl rfl⟩
  · exact ⟨id, fun _ => rfl, id, .inl rfl⟩
  · have hredraw := exec_keeps_redraw hexec
    obtain ⟨hcount, hlast⟩ := exec_anomaly hexec
    exact ⟨hredraw, by simp [hrun], fun hl => hlast ▸ hl, .inl hcount⟩
  · exact ⟨id, id, fun _ => rfl, .inr rfl⟩

end Sys2Proof.Machine
end

section
/-! PROOFS. The invariant (spec/10_state.md R13, R21, R23, spec/41_control_flow.md R100): every line of R80, every host
move and every schedule keeps it. -/

namespace Sys2Proof.Machine

variable {s t : State}

/-! ### The invariant of a running machine, and of one that raises -/

/-- A running machine has no record to fit. -/
theorem State.Inv.of_running (memWf : t.mem.wf = true) (hrun : t.halted = false) (hfault : t.fault = none)
    (anomalyFits : t.anomalyCount = 0 ↔ t.lastAnomaly = none) (pcBound : t.pc.toNat ≤ 0x10FE)
    (stackBound : t.StackBound) : t.Inv where
  memWf := memWf
  faultValid := by simp [hrun, hfault]
  haltedNotWaiting := by simp [hrun]
  recordFits := by simp [hfault]
  anomalyFits := anomalyFits
  pcBound := pcBound
  stackBound := stackBound

theorem State.Inv.fault_none (h : s.Inv) (hrun : s.halted = false) : s.fault = none := by
  simpa [hrun] using h.faultValid

/-- Raising keeps the invariant where no register waits and the opcode is missing for the fetch fault alone. -/
theorem State.Inv.raise (h : s.Inv) (hwait : s.wait = none) {kind : FaultKind} {op : Option Word}
    (hop : op = none ↔ kind = .programCounterOutOfBounds) : (s.raise kind op).Inv where
  memWf := h.memWf
  faultValid := rfl
  haltedNotWaiting _ := hwait
  recordFits f hf := by
    cases hf
    exact ⟨rfl, rfl, hop⟩
  anomalyFits := h.anomalyFits
  pcBound := h.pcBound
  stackBound := h.stackBound

theorem State.Inv.advance (h : s.Inv) (hrun : s.halted = false) (hpc : s.pc.toNat ≤ 0xFFE) : s.advance.Inv :=
  .of_running h.memWf hrun (h.fault_none hrun) h.anomalyFits (by rw [State.advance_toNat hpc]; omega) h.stackBound

/-! ### The lines of R80 -/

theorem keyPoll_inv (h : s.Inv) (hrun : s.halted = false) (x : RegIx) : (keyPoll x s).Inv := by
  rcases keyPoll_cases x s with ⟨-, hpoll⟩ | ⟨k, d, -, hpoll⟩
  · rwa [hpoll]
  · rw [hpoll]
    exact .of_running h.memWf hrun (h.fault_none hrun) h.anomalyFits h.pcBound h.stackBound

/-- The fetch fault is no instruction's. -/
theorem mayRaise_ne_fetchFault (i : Instr) : mayRaise i ≠ some .programCounterOutOfBounds := by
  cases i <;> simp [mayRaise]

theorem exec_inv {i : Instr} (h : s.Inv) (hrun : s.halted = false) (hwait : s.wait = none) (hpc : s.pc.toNat ≤ 0x1000)
    (hexec : exec i s = .next t) : t.Inv := by
  rcases exec_cases hexec with heffect | ⟨kind, hkind, rfl⟩
  · obtain ⟨hhalted, hfault, hanomaly, -⟩ := not_mem_mayWrite i
    obtain ⟨hcount, hlast⟩ := heffect.frame.anomaly hanomaly
    exact .of_running (heffect.memWf h.memWf) ((heffect.frame.halted hhalted).trans hrun)
      ((heffect.frame.fault hfault).trans (h.fault_none hrun)) (by rw [hcount, hlast]; exact h.anomalyFits)
      (heffect.pcBound hpc h.stackBound) (heffect.stackBound hpc h.stackBound)
  · have hne : kind ≠ .programCounterOutOfBounds := fun e => mayRaise_ne_fetchFault i (e ▸ hkind)
    exact h.raise hwait (by simp [hne])

theorem reportUnrecognized_inv (h : s.Inv) (hrun : s.halted = false) (a w : Word) : (s.reportUnrecognized a w).Inv :=
  .of_running h.memWf hrun (h.fault_none hrun) (by simp) h.pcBound h.stackBound

/-- Settles O52: one lemma per line of R80. -/
theorem stepKeepsTheInvariant : Obligations.StepKeepsTheInvariant := by
  intro s t h hstep
  rcases step_cases hstep with ⟨-, rfl⟩ | ⟨hrun, x, -, rfl⟩ | ⟨hrun, hwait, -, rfl⟩ |
    ⟨hrun, hwait, hpc, op, -, ⟨i, -, hexec⟩ | ⟨e, -, rfl⟩⟩
  · exact h
  · exact keyPoll_inv h hrun x
  · exact h.raise hwait (by simp)
  · exact exec_inv (h.advance hrun hpc) hrun hwait (by rw [State.advance_toNat hpc]; omega) hexec
  · exact reportUnrecognized_inv (h.advance hrun hpc) hrun _ _

/-! ### The host moves -/

/-- Settles O51: memory lists nothing, and every other clause is of constants. -/
theorem resetMeetsTheInvariant : Obligations.ResetMeetsTheInvariant :=
  .of_running rfl rfl rfl (by simp [State.reset]) (by decide) fun k => by simp [State.reset, Vector.get_eq_getElem]

theorem State.Inv.load (h : s.Inv) (bytes : List Byte) : (s.loadOrKeep bytes).Inv := by
  by_cases hlen : bytes.length ≤ 3584
  · rw [State.loadOrKeep, s.load_of_le hlen]
    exact { h with memWf := Memory.wf_putBytes h.memWf _ _ }
  · rwa [State.loadOrKeep, s.load_of_gt (by omega)]

theorem hostReset_inv (s : State) (font : Vector Byte 80) : (s.hostReset font).Inv :=
  { resetMeetsTheInvariant with memWf := Memory.wf_putBytes (m := []) rfl _ _ }

/-- Settles O53: a step answers a next state and keeps the invariant, a tick, KEYS and redraw are in no clause, a load
puts bytes, and a reset starts again. -/
theorem everyMoveKeepsTheInvariant : Obligations.EveryMoveKeepsTheInvariant := by
  intro m s h
  cases m with
  | step =>
    obtain ⟨t, ht⟩ := step_next s
    exact ⟨t, ht, stepKeepsTheInvariant s t h ht⟩
  | tick | setKeys | clearRedraw => exact ⟨_, rfl, { h with }⟩
  | load bytes => exact ⟨_, rfl, h.load bytes⟩
  | reset font => exact ⟨_, rfl, hostReset_inv s font⟩

/-- Settles O54, by induction on the list of moves. -/
theorem everyScheduleKeepsTheInvariant : Obligations.EveryScheduleKeepsTheInvariant := by
  intro ms
  induction ms with
  | nil => exact fun s h => ⟨s, rfl, h⟩
  | cons m ms ih =>
    intro s h
    obtain ⟨t, ht, hinv⟩ := everyMoveKeepsTheInvariant m s h
    simpa only [runSchedule, ht] using ih t hinv

end Sys2Proof.Machine
end

section
/-! PROOFS. Two runs side by side (spec/10_state.md R17, R20, R23, spec/40_step_cycle.md R90): an instruction reads
neither the host's records nor, but for the key skips, KEYS, so from two states that are equal but for some of these it
answers two states that are. -/

namespace Sys2Proof.Machine

variable {ps : List Part} {s s' : State}

/-! ### What is equal before -/

/-- The parts that instructions read are equal. -/
structure SameInputs (s s' : State) : Prop where
  v : s'.v = s.v
  i : s'.i = s.i
  pc : s'.pc = s.pc
  stack : s'.stack = s.stack
  sp : s'.sp = s.sp
  dt : s'.dt = s.dt
  mem : ∀ a, s'.mem.byteAt a = s.mem.byteAt a
  fb : s'.fb = s.fb
  draws : s'.draws = s.draws

/-- States that are equal but for records and KEYS have the same inputs. -/
theorem Unchanged.sameInputs (hps : ps ⊆ [.st, .redraw, .anomaly, .fault, .keys]) (h : Unchanged ps s s') :
    SameInputs s s' := by
  have hnot (p : Part) (hp : p ∉ [Part.st, .redraw, .anomaly, .fault, .keys]) : p ∉ ps := fun hmem => hp (hps hmem)
  exact ⟨h.v (hnot _ (by decide)), h.i (hnot _ (by decide)), h.pc (hnot _ (by decide)), h.stack (hnot _ (by decide)),
    h.sp (hnot _ (by decide)), h.dt (hnot _ (by decide)), h.mem (hnot _ (by decide)), h.fb (hnot _ (by decide)),
    h.draws (hnot _ (by decide))⟩

theorem SameInputs.getV (h : SameInputs s s') (x : RegIx) : s'.getV x = s.getV x := getV_congr h.v x

theorem SameInputs.effAddr (h : SameInputs s s') (k : Nat) : effAddr s' k = effAddr s k := effAddr_congr h.i k

theorem SameInputs.regsUpTo (h : SameInputs s s') (x : RegIx) : regsUpTo s' x = regsUpTo s x := by
  simp [Machine.regsUpTo, h.v]

theorem SameInputs.fetch (h : SameInputs s s') : s'.fetch = s.fetch := by
  simp [State.fetch, h.pc, h.mem]

theorem SameInputs.drawnSprite (h : SameInputs s s') (x y : RegIx) (n : Nat) :
    drawnSprite s' x y n = drawnSprite s x y n := by
  simp [Machine.drawnSprite, spriteBytes, spriteOrigin, h.mem, h.getV, h.effAddr, h.fb]

/-! ### What is equal after: the named updates with the same values -/

theorem Unchanged.setV (h : Unchanged ps s s') (x : RegIx) {b b' : Byte} (hb : b' = b) :
    Unchanged ps (s.setV x b) (s'.setV x b') :=
  { h with v := fun hp => by simp [h.v hp, hb] }

theorem Unchanged.setFlagThenV (h : Unchanged ps s s') (x : RegIx) {c c' : Bool} {b b' : Byte} (hc : c' = c)
    (hb : b' = b) : Unchanged ps (s.setFlagThenV x c b) (s'.setFlagThenV x c' b') :=
  (h.setV vf (congrArg flagByte hc)).setV x hb

theorem Unchanged.setRegs (h : Unchanged ps s s') {bs bs' : List Byte} (hbs : bs' = bs) :
    Unchanged ps (s.setRegs bs) (s'.setRegs bs') := by
  unfold State.setRegs
  exact { h with v := fun hp => by simp [h.v hp, hbs] }

theorem Unchanged.skipIf (h : Unchanged ps s s') {c c' : Bool} (hc : c' = c) :
    Unchanged ps (s.skipIf c) (s'.skipIf c') := by
  rw [State.skipIf_eq, State.skipIf_eq, hc]
  exact { h with pc := fun hp => by simp [h.pc hp] }

theorem Unchanged.storeAtI (h : Unchanged ps s s') (hin : SameInputs s s') {bs bs' : List Byte} (hbs : bs' = bs) :
    Unchanged ps (s.storeAtI bs) (s'.storeAtI bs') := by
  unfold State.storeAtI
  rw [hbs, hin.effAddr]
  exact { h with mem := fun _ => Memory.byteAt_putBytes_congr hin.mem _ _ }

theorem Unchanged.raise (h : Unchanged ps s s') (hin : SameInputs s s') (kind : FaultKind) (op : Option Word) :
    Unchanged ps (s.raise kind op) (s'.raise kind op) :=
  { h with halted := fun _ => rfl, fault := fun _ => by simp [hin.pc, hin.sp] }

/-! ### Instructions -/

/-- The two outcomes of a pop (R100). -/
theorem State.sp_eq_zero_or_succ (s : State) : s.sp.val = 0 ∨ ∃ k : Fin 16, s.sp.val = k.val + 1 := by
  rcases Nat.eq_zero_or_pos s.sp.val with h0 | hpos
  · exact .inl h0
  · exact .inr ⟨⟨s.sp.val - 1, by omega⟩, (Nat.sub_add_cancel hpos).symm⟩

/-- The two outcomes of a key skip (R167). -/
theorem State.getV_gt_or_key (s : State) (x : RegIx) :
    15 < (s.getV x).toNat ∨ ∃ k : Fin 16, (s.getV x).toNat = k.val := by
  rcases Nat.lt_or_ge 15 (s.getV x).toNat with hgt | hle
  · exact .inl hgt
  · exact .inr ⟨⟨(s.getV x).toNat, by omega⟩, rfl⟩

/-- Both answers are next states, equal but for `ps`. -/
def SameNext (ps : List Part) (r r' : Result) : Prop := ∃ t t', r = .next t ∧ r' = .next t' ∧ Unchanged ps t t'

theorem exec_congr {i : Instr} (hps : ps ⊆ [.st, .redraw, .anomaly, .fault, .keys])
    (hkeys : .keys ∈ ps → ∀ x, i ≠ .skp x ∧ i ≠ .sknp x) (h : Unchanged ps s s') :
    SameNext ps (exec i s) (exec i s') := by
  have hin := h.sameInputs hps
  cases i with
  | cls => exact ⟨_, _, rfl, rfl, { h with fb := fun _ => rfl, redraw := fun _ => rfl }⟩
  | ret =>
    rcases s.sp_eq_zero_or_succ with h0 | ⟨k, hk⟩
    · exact ⟨_, _, exec_ret_of_sp_zero h0, exec_ret_of_sp_zero (hin.sp ▸ h0), h.raise hin _ _⟩
    · exact ⟨_, _, exec_ret_of_sp_succ hk, exec_ret_of_sp_succ (hin.sp ▸ hk),
        { h with pc := fun _ => by simp [hin.stack], sp := fun _ => rfl }⟩
  | jp nnn => exact ⟨_, _, rfl, rfl, { h with pc := fun _ => rfl }⟩
  | call nnn =>
    rcases Nat.lt_or_ge s.sp.val 16 with hlt | hge
    · exact ⟨_, _, exec_call_of_sp_lt nnn hlt, exec_call_of_sp_lt nnn (hin.sp ▸ hlt),
        { h with
          pc := fun _ => rfl
          sp := fun _ => by simp [hin.sp]
          stack := fun _ => by simp [hin.sp, hin.pc, hin.stack] }⟩
    · have hfull : s.sp.val = 16 := by omega
      exact ⟨_, _, exec_call_of_sp_full nnn hfull, exec_call_of_sp_full nnn (hin.sp ▸ hfull), h.raise hin _ _⟩
  | jpV0 nnn => exact ⟨_, _, rfl, rfl, { h with pc := fun _ => by simp [hin.getV] }⟩
  | seByte | sneByte | seReg | sneReg => exact ⟨_, _, rfl, rfl, h.skipIf (by simp [hin.getV])⟩
  | ldByte | addByte | ldReg | orReg | andReg | xorReg => exact ⟨_, _, rfl, rfl, h.setV _ (by simp [hin.getV])⟩
  | ldVxDT x => exact ⟨_, _, rfl, rfl, h.setV x hin.dt⟩
  | addReg | subReg | shr | subnReg | shl =>
    exact ⟨_, _, rfl, rfl, h.setFlagThenV _ (by simp [hin.getV]) (by simp [hin.getV])⟩
  | rnd x nn =>
    exact ⟨_, _, rfl, rfl,
      { h.setV x (congrArg (Config.randByte · &&& nn) hin.draws) with draws := fun _ => by simp [hin.draws] }⟩
  | ldI nnn => exact ⟨_, _, rfl, rfl, { h with i := fun _ => rfl }⟩
  | addI x => exact ⟨_, _, rfl, rfl, { h with i := fun _ => by simp [hin.i, hin.getV] }⟩
  | ldDTVx x => exact ⟨_, _, rfl, rfl, { h with dt := fun _ => hin.getV x }⟩
  | ldSTVx x => exact ⟨_, _, rfl, rfl, { h with st := fun _ => hin.getV x }⟩
  | ldVxK x => exact ⟨_, _, rfl, rfl, { h with wait := fun _ => rfl }⟩
  | skp x =>
    have hk : s'.keys = s.keys := h.keys fun hmem => (hkeys hmem x).1 rfl
    rcases s.getV_gt_or_key x with hgt | ⟨k, hnum⟩
    · exact ⟨_, _, exec_skp_of_gt hgt, exec_skp_of_gt (hin.getV x ▸ hgt), h.raise hin _ _⟩
    · exact ⟨_, _, exec_skp_of_key hnum, exec_skp_of_key (hin.getV x ▸ hnum), h.skipIf (by simp [State.keyDown, hk])⟩
  | sknp x =>
    have hk : s'.keys = s.keys := h.keys fun hmem => (hkeys hmem x).2 rfl
    rcases s.getV_gt_or_key x with hgt | ⟨k, hnum⟩
    · exact ⟨_, _, exec_sknp_of_gt hgt, exec_sknp_of_gt (hin.getV x ▸ hgt), h.raise hin _ _⟩
    · exact ⟨_, _, exec_sknp_of_key hnum, exec_sknp_of_key (hin.getV x ▸ hnum), h.skipIf (by simp [State.keyDown, hk])⟩
  | drw x y n =>
    by_cases hle : n = 0 ∨ effAddr s (n.val - 1) ≤ 0xFFF
    · exact ⟨_, _, exec_drw_of_le x y hle, exec_drw_of_le x y (hin.effAddr _ ▸ hle),
        { h.setV vf (by rw [hin.drawnSprite]) with fb := fun _ => by simp [hin.drawnSprite], redraw := fun _ => rfl }⟩
    · obtain ⟨h0, hgt⟩ := not_or.1 hle
      have hgt := Nat.lt_of_not_le hgt
      exact ⟨_, _, exec_drw_of_gt x y h0 hgt, exec_drw_of_gt x y h0 (hin.effAddr _ ▸ hgt), h.raise hin _ _⟩
  | ldB x =>
    rcases Nat.lt_or_ge 0xFFF (effAddr s 2) with hgt | hle
    · exact ⟨_, _, exec_ldB_of_gt x hgt, exec_ldB_of_gt x (hin.effAddr 2 ▸ hgt), h.raise hin _ _⟩
    · exact ⟨_, _, exec_ldB_of_le x hle, exec_ldB_of_le x (hin.effAddr 2 ▸ hle), h.storeAtI hin (by rw [hin.getV])⟩
  | ldMemVx x =>
    rcases Nat.lt_or_ge 0xFFF (effAddr s x.val) with hgt | hle
    · exact ⟨_, _, exec_ldMemVx_of_gt hgt, exec_ldMemVx_of_gt (hin.effAddr _ ▸ hgt), h.raise hin _ _⟩
    · exact ⟨_, _, exec_ldMemVx_of_le hle, exec_ldMemVx_of_le (hin.effAddr _ ▸ hle), h.storeAtI hin (hin.regsUpTo x)⟩
  | ldVxMem x =>
    rcases Nat.lt_or_ge 0xFFF (effAddr s x.val) with hgt | hle
    · exact ⟨_, _, exec_ldVxMem_of_gt hgt, exec_ldVxMem_of_gt (hin.effAddr _ ▸ hgt), h.raise hin _ _⟩
    · exact ⟨_, _, exec_ldVxMem_of_le hle, exec_ldVxMem_of_le (hin.effAddr _ ▸ hle),
        h.setRegs (by simp [hin.mem, hin.effAddr])⟩

/-- Settles O50: the two states differ in KEYS alone, which only the key skips read. -/
theorem onlyKeySkipsReadKeys : Obligations.OnlyKeySkipsReadKeys := by
  intro i s t keys hi hexec
  have hbefore : Unchanged [.keys] s { s with keys := keys } := by constructor <;> simp
  obtain ⟨u, t', hu, ht', hafter⟩ := exec_congr (by simp) (fun _ => hi) hbefore
  obtain rfl := exec_next_unique hexec hu
  exact ⟨t', ht', hafter⟩

/-! ### Steps -/

theorem keyPoll_congr (h : Unchanged ps s s') (hin : SameInputs s s') (hk : s'.keys = s.keys) (x : RegIx) :
    Unchanged ps (keyPoll x s) (keyPoll x s') := by
  have htake (k : Fin 16) : Unchanged ps (s.takeKey x k) (s'.takeKey x k) := { h.setV x rfl with wait := fun _ => rfl }
  have hpressed : s'.pressed = s.pressed := by
    simp only [State.pressed, funext (fun k => show s'.keyDown k = s.keyDown k by simp [State.keyDown, hk])]
  unfold keyPoll
  rw [hpressed, hin.draws]
  split
  · exact h
  · exact htake _
  · exact { htake _ with draws := fun _ => rfl }

/-- The records alone: KEYS are equal, so the key poll and the key skips agree too. -/
theorem step_congr (hps : ps ⊆ [.st, .redraw, .anomaly, .fault]) (h : Unchanged ps s s') :
    SameNext ps (step s) (step s') := by
  have hnot (p : Part) (hp : p ∉ [Part.st, .redraw, .anomaly, .fault]) : p ∉ ps := fun hmem => hp (hps hmem)
  have hps' : ps ⊆ [.st, .redraw, .anomaly, .fault, .keys] := List.Subset.trans hps (by simp)
  have hin := h.sameInputs hps'
  have hhalted : s'.halted = s.halted := h.halted (hnot _ (by decide))
  have hwait : s'.wait = s.wait := h.wait (hnot _ (by decide))
  cases hrun : s.halted with
  | true => exact ⟨s, s', step_of_halted hrun, step_of_halted (hhalted.trans hrun), h⟩
  | false =>
    have hrun' := hhalted.trans hrun
    cases hw : s.wait with
    | some x =>
      exact ⟨_, _, step_of_waiting hrun hw, step_of_waiting hrun' (hwait.trans hw),
        keyPoll_congr h hin (h.keys (hnot _ (by decide))) x⟩
    | none =>
      have hw' := hwait.trans hw
      rcases Nat.lt_or_ge 0xFFE s.pc.toNat with hgt | hle
      · exact ⟨_, _, step_of_pc_gt hrun hw hgt, step_of_pc_gt hrun' hw' (hin.pc ▸ hgt), h.raise hin _ _⟩
      · have hfetch := State.fetch_some hle
        have hadvance : Unchanged ps s.advance s'.advance := { h with pc := fun hp => by simp [h.pc hp] }
        cases hdecode : decodeWord (wordOfBytes (s.mem.byteAt s.pc.toNat) (s.mem.byteAt (s.pc.toNat + 1))) with
        | ok i =>
          rw [step_of_fetch_decoded hrun hw hfetch hdecode,
            step_of_fetch_decoded hrun' hw' (hin.fetch.trans hfetch) hdecode]
          exact exec_congr hps' (fun hmem => absurd hmem (hnot _ (by decide))) hadvance
        | error e =>
          exact ⟨_, _, step_of_fetch_rejected hrun hw hfetch hdecode,
            step_of_fetch_rejected hrun' hw' (hin.fetch.trans hfetch) hdecode,
            { hadvance with anomaly := fun hp => by simp [h.anomaly hp, hin.pc] }⟩

/-- Settles O49: no line of R80 reads a record. -/
theorem hostsRecordsInfluenceNoStep : Obligations.HostsRecordsInfluenceNoStep := by
  intro s s' t hbefore hstep
  obtain ⟨u, t', hu, ht', hafter⟩ := step_congr (List.Subset.refl _) hbefore
  obtain rfl : u = t := Host.Outcome.next.inj (hu.symm.trans hstep)
  exact ⟨t', ht', hafter⟩

end Sys2Proof.Machine
end
